-- ==== Sys2Proof/Word.lean ====
section
/-! DEFINITION. The bit vectors of the block, each at the width the spec states (00_scope.md R5, R6). -/

namespace Sys2Proof

/-- One element of a data sequence: a code point or a packed byte, `SYM_W = 8` bits (R6, R31). -/
abbrev Byte := BitVec 8

/-- A symbol's value, `VAL_W = 6` bits (R5, R33). -/
abbrev Val := BitVec 6

/-- The group word `W` of format GROUP24, 24 bits (R33). -/
abbrev GroupWord := BitVec 24

/-- The `op` field of a request, `OP_W = 2` bits (R6, R34). -/
abbrev OpField := BitVec 2

/-- The `status` field of a response as bits, `STATUS_W = 3` bits (R6, R32). -/
abbrev StatusCode := BitVec 3

end Sys2Proof
end

