-- ==== Sys2Proof/Config.lean ====
section
/-! DEFINITION. The hardwired constants (00_scope.md R5, 10_state.md R14) and the parameters the source leaves open
(00_scope.md R6). Constants are definitions, never state. -/

namespace Sys2Proof

/-- `ALPHA_LO`, the lowest code point of the alphabet and its base code point (R5). -/
abbrev Config.alphaLo : Byte := 0x20

/-- `ALPHA_HI`, the highest code point of the alphabet (R5). -/
abbrev Config.alphaHi : Byte := 0x5F

/-- `ALPHA_SIZE = ALPHA_HI - ALPHA_LO + 1` (R5). -/
abbrev Config.alphaSize : Nat := Config.alphaHi.toNat - Config.alphaLo.toNat + 1

/-- `VAL_W`, bits of a symbol's value (R5). -/
abbrev Config.valW : Nat := 6

/-- `BYTE_W`, bits of a packed byte (R5). -/
abbrev Config.byteW : Nat := 8

/-- `GROUP_SYMS`, symbols per group (R5). -/
abbrev Config.groupSyms : Nat := 4

/-- `GROUP_BYTES`, bytes per group (R5). -/
abbrev Config.groupBytes : Nat := 3

/-- `GROUP_W`, bits per group (R5). -/
abbrev Config.groupW : Nat := Config.groupSyms * Config.valW

/-- `MIN_LEN`, the minimum password length in symbols (R5). -/
abbrev Config.minLen : Nat := 16

/-- `MAX_LEN`, the largest length a request may carry: `none` is unbounded, the default R6 states. The host's offer
takes it as an argument (Machine/Port.lean), so that a claim can be made for every value of it (log entry 5). -/
def Config.maxLen : Option Nat := none

/-- `PACK_OOR` (R6, R54): the 24 bits PACK produces for a group that holds an element outside the alphabet. A FREE
VALUE without a body, applied to the stamp of the transaction, the number of the group and the group's four elements,
so that it is fresh for every such group (log entry 1). -/
opaque Config.packOor (stamp group : Nat) (c0 c1 c2 c3 : Byte) : GroupWord

end Sys2Proof
end

