-- ==== Sys2Proof/Syntax.lean ====
section
/-! DEFINITION. The request record (format CMD, 30_encoding.md R34) and the commands of command set SCV-1, one
constructor per row of spec/opcode_table.json. -/

namespace Sys2Proof

/-- Format CMD: the pair (`op`, `in`). The length is the length of `data`, not a field of its own (R34). -/
structure Request where
  op   : OpField
  data : List Byte
  deriving DecidableEq, Repr

/-- The commands. Each has one operand, the sequence `in`, taken as it stands (R35). -/
inductive Instr where
  /-- PACK, `op = 0`: symbols in, bytes out (41_codec.md R52). -/
  | pack (data : List Byte)
  /-- UNPACK, `op = 1`: bytes in, symbols out (41_codec.md R53). -/
  | unpack (data : List Byte)
  /-- VALIDATE, `op = 2`: a candidate password in, a verdict out (42_validator.md R62). -/
  | validate (data : List Byte)
  /-- `.op3`, the reserved `op = 3`: the operand is carried and never examined (30_encoding.md R37). -/
  | op3 (data : List Byte)
  deriving DecidableEq, Repr

/-- The operand sequence `in` of a command. -/
def Instr.data : Instr → List Byte
  | .pack d => d
  | .unpack d => d
  | .validate d => d
  | .op3 d => d

/-- The mnemonic of the written notation (R39). -/
def Instr.mnemonic : Instr → String
  | .pack _ => "PACK"
  | .unpack _ => "UNPACK"
  | .validate _ => "VALIDATE"
  | .op3 _ => ".op3"

/-- A written operand `<seq>` (R39): a bracketed list of elements, a quoted string, or an `append`. -/
inductive SeqExpr where
  | elems (xs : List Byte)
  | quoted (cs : List Char)
  | append (a b : SeqExpr)
  deriving DecidableEq, Repr

end Sys2Proof
end

