-- ==== Sys2Proof/WellFormed.lean ====
section
/-! DEFINITION. Which requests and commands can be offered to the block: `0 <= len(in) <= MAX_LEN` (30_encoding.md R34)
and nothing else, since every element value is legal for every command (R38). -/

namespace Sys2Proof

/-- `len(in) <= MAX_LEN`, for a given `MAX_LEN` (`none` is unbounded). -/
def withinMaxLen : Option Nat → List Byte → Bool
  | none, _ => true
  | some n, data => decide (data.length ≤ n)

/-- A request that a block of the given `MAX_LEN` can be offered (R34, 93_implementation_defined.md U6). -/
def Request.wfFor (maxLen : Option Nat) (r : Request) : Bool := withinMaxLen maxLen r.data

/-- A command that a block of the given `MAX_LEN` can be offered. -/
def Instr.wfFor (maxLen : Option Nat) (i : Instr) : Bool := withinMaxLen maxLen i.data

/-- Well-formedness at the `MAX_LEN` of Config. -/
def Instr.wf (i : Instr) : Bool := i.wfFor Config.maxLen

end Sys2Proof
end

