-- ==== Sys2Proof/Decode.lean ====
section
/-! DEFINITION. The decoder (total: 30_encoding.md R36), the encoder, the table-word decoder of the host, and the
written notation (R39). The block has no instruction memory; what is decoded is a request record (20_memory.md R29). -/

namespace Sys2Proof

/-- The decoder: the `op` field alone selects the command (R30, R36). -/
def decode (r : Request) : Instr :=
  match r.op with
  | 0b00#2 => .pack r.data
  | 0b01#2 => .unpack r.data
  | 0b10#2 => .validate r.data
  | 0b11#2 => .op3 r.data

/-- The encoder, from the same map (R36). -/
def encode : Instr → Request
  | .pack d => { op := 0b00, data := d }
  | .unpack d => { op := 0b01, data := d }
  | .validate d => { op := 0b10, data := d }
  | .op3 d => { op := 0b11, data := d }

/-- The request whose `op` field is bits 1:0 of a table word, with the operand empty: spec/opcode_table.json gives the
operand no bits, and its mask 0x3 gives the bits above no meaning (log entry 6). -/
def tableWordRequest (nbits w : Nat) : Option Request :=
  if nbits < 2 then none else some { op := BitVec.ofNat 2 w, data := [] }

/-- What the decoder reads from a table word. -/
def decodeTableWord (nbits w : Nat) : Option Instr := (tableWordRequest nbits w).map decode

/-- The code point of a character of the table of R31; a character outside it has none. -/
def charCode (c : Char) : Option Byte :=
  if Config.alphaLo.toNat ≤ c.toNat ∧ c.toNat ≤ Config.alphaHi.toNat then some (BitVec.ofNat 8 c.toNat) else none

/-- The code points of a quoted string (R8, R39), when every character is in the table of R31. -/
def charCodes : List Char → Option (List Byte)
  | [] => some []
  | c :: cs =>
    match charCode c, charCodes cs with
    | some b, some bs => some (b :: bs)
    | _, _ => none

/-- The sequence a written operand stands for (R39). -/
def SeqExpr.eval : SeqExpr → Option (List Byte)
  | .elems xs => some xs
  | .quoted cs => charCodes cs
  | .append a b =>
    match a.eval, b.eval with
    | some xs, some ys => some (xs ++ ys)
    | _, _ => none

/-- The request a written line `MNEMONIC <seq>` stands for (R39); the mnemonic is given as its constructor. -/
def assemble (mnemonic : List Byte → Instr) (operand : SeqExpr) : Option Request :=
  operand.eval.map fun xs => encode (mnemonic xs)

end Sys2Proof
end

