-- ==== Sys2Proof/Machine/State.lean ====
section
/-! DEFINITION. The response record (format RSP, 30_encoding.md R32), the protocol state (10_state.md R17), the state
of one instance with its two ports, and the state after reset. There are no registers, no program counter, no flags, no
control registers and no memory (10_state.md R10 to R15). -/

namespace Sys2Proof.Machine

/-- Why the machine stops. Nothing in the spec stops the block: every exception is a response (60_exceptions.md R74) and
the block cannot hang (70_reset_and_hazards.md R89). No constructor, so no step can fault. -/
inductive Fault where
  deriving DecidableEq, Repr

/-- What is given no meaning. No command's meaning raises any of these. -/
inductive Refusal where
  /-- An arm of `exec` whose instruction has no meaning yet: none in this model. Safe. -/
  | notModelled (mnemonic : String)
  /-- Raised by the host's offer (Machine/Port.lean) for a request longer than `MAX_LEN`, which the spec refuses at the
  boundary (93_implementation_defined.md U6). Safe. -/
  | requestTooLong
  /-- Raised by the host's framed offer for a frame the wire format reads as no request (30_encoding.md R34). Safe. -/
  | badFrame
  /-- Raised by the decoder of status codes (Machine/Flags.lean) for the codes 6 and 7, which are never produced
  (93_implementation_defined.md U5). Safe. -/
  | unknownStatus
  /-- Raised by the step of a system of instances (Machine/Instances.lean) for an instance that does not exist. Safe. -/
  | noSuchInstance
  deriving DecidableEq, Repr

/-- The outcomes a response can report (60_exceptions.md R70); the codes are in Machine/Flags.lean. -/
inductive Status where
  | ok
  | symbolCountError
  | byteCountError
  | lengthError
  | forbiddenSymbolError
  | illegalCommand
  deriving DecidableEq, Repr

/-- Format RSP (R32). `errSym` and `errPos` are absent unless the status is ForbiddenSymbolError. -/
structure Response where
  status : Status
  out    : List Byte
  errSym : Option Byte
  errPos : Option Nat
  deriving DecidableEq, Repr

/-- The exceptions of the block with what each records (60_exceptions.md R70, R72). -/
inductive Exception where
  | symbolCount
  | byteCount
  | length
  | forbiddenSymbol (sym : Byte) (pos : Nat)
  | illegalCommand
  deriving DecidableEq, Repr

/-- Which call of which host a request is: the label under which its response goes back (60_exceptions.md R80). The
block never looks at it (R79); the numbers are the hosts' own (log entry 13). -/
structure Caller where
  host : Nat
  call : Nat
  deriving DecidableEq, Repr

/-- A request as it stands at the port: with the label of its caller (R80). -/
structure Offer where
  caller : Caller
  req    : Request
  deriving DecidableEq, Repr

/-- A response as it is handed over: with the label of the caller whose request it answers (R80). The label is absent only
where `exec` is applied outside a transaction, to an Idle state, which no step does. -/
structure Delivery where
  caller   : Option Caller
  response : Response
  deriving DecidableEq, Repr

/-- The protocol state `ps` (R17): the constructor is its value, Idle or Busy. The argument of `busy` is no part of
`ps`: it is the transient state of the transaction in progress (R16), the request accepted with its caller's label, which
exists exactly as long as `ps` is Busy (log entry 7). -/
inductive ProtocolState where
  | idle
  | busy (taken : Offer)
  deriving DecidableEq, Repr

/-- One instance of the block with its two ports. `ps` is the only state the spec gives the block; `port`, `rst` and
`delivered` are its inputs and outputs; `stamp` is the model's own. -/
structure State where
  /-- The protocol state (R17). -/
  ps        : ProtocolState
  /-- Requests offered and not yet accepted, oldest first: they wait here while the block is Busy (R84). -/
  port      : List Offer
  /-- The reset input: asserted and not yet taken (R81). -/
  rst       : Bool
  /-- Responses handed over and not yet read by their callers, oldest first (R27, R80). -/
  delivered : List Delivery
  /-- The model's own: how many transactions have been answered. It makes the free value of R54 fresh. -/
  stamp     : Nat
  deriving DecidableEq, Repr

/-- After reset `ps` is Idle and nothing else exists (10_state.md R19). The other fields are the model's choices (log
entries 1 to 4). -/
def State.reset : State :=
  { ps := .idle, port := [], rst := false, delivered := [], stamp := 0 }

end Sys2Proof.Machine
end

