-- ==== Sys2Proof/Machine/Flags.lean ====
section
/-! DEFINITION. The status codes. The block has no flags (10_state.md R12); the `status` of a response is its only
condition output (30_encoding.md R32, 60_exceptions.md R70). -/

namespace Sys2Proof.Machine

/-- The code of a status (R70). -/
def statusCode : Status → StatusCode
  | .ok => 0
  | .symbolCountError => 1
  | .byteCountError => 2
  | .lengthError => 3
  | .forbiddenSymbolError => 4
  | .illegalCommand => 5

/-- How a host reads a status code back: 6 and 7 are refused (93_implementation_defined.md U5, R38 (e)). -/
def statusOfCode (c : StatusCode) : Except Refusal Status :=
  match c with
  | 0#3 => .ok .ok
  | 1#3 => .ok .symbolCountError
  | 2#3 => .ok .byteCountError
  | 3#3 => .ok .lengthError
  | 4#3 => .ok .forbiddenSymbolError
  | 5#3 => .ok .illegalCommand
  | 6#3 => .error .unknownStatus
  | 7#3 => .error .unknownStatus

/-- The status an exception is answered with (R70). -/
def exceptionStatus : Exception → Status
  | .symbolCount => .symbolCountError
  | .byteCount => .byteCountError
  | .length => .lengthError
  | .forbiddenSymbol _ _ => .forbiddenSymbolError
  | .illegalCommand => .illegalCommand

/-- The error fields an exception records: only ForbiddenSymbolError records any (R72). -/
def exceptionSym : Exception → Option Byte
  | .symbolCount => none
  | .byteCount => none
  | .length => none
  | .forbiddenSymbol sym _ => some sym
  | .illegalCommand => none

/-- The position an exception records (R72). -/
def exceptionPos : Exception → Option Nat
  | .symbolCount => none
  | .byteCount => none
  | .length => none
  | .forbiddenSymbol _ pos => some pos
  | .illegalCommand => none

end Sys2Proof.Machine
end

