-- ==== Sys2Proof/Machine/Operands.lean ====
section
/-! DEFINITION. The datapath: access to the two sequences (20_memory.md R20), the symbol map (40_symbol_map.md), the
group word (30_encoding.md R33), the group primitives (41_codec.md R50, R51) and the validator's two checks
(42_validator.md R60, R61). All arithmetic is unsigned (R45). -/

namespace Sys2Proof.Machine

/-- `MemRead(i, n)`: the `n` elements from index `i` (00_scope.md R8, 20_memory.md R20). -/
def memRead (seq : List Byte) (i n : Nat) : List Byte := (seq.drop i).take n

/-- `MemWrite(j, n, v)`: the elements of `v` from index `j` of an output written so far up to `j`; each index is written
once, in increasing order (00_scope.md R8). -/
def memWrite (out : List Byte) (j : Nat) (v : List Byte) : List Byte := out.take j ++ v

/-- `INALPHA(c)`: two unsigned comparisons (R43). -/
def inAlpha (c : Byte) : Bool := decide (Config.alphaLo ≤ c) && decide (c ≤ Config.alphaHi)

/-- `S2V(c) = (c - 0x20)[5:0]` for a Symbol (R40), and no value outside the alphabet (R44). -/
def s2v (c : Byte) : Option Val :=
  if inAlpha c then some ((c - Config.alphaLo).extractLsb' 0 6) else none

/-- `V2S(v) = zext_8(v) + 0x20` (R41). -/
def v2s (v : Val) : Byte := v.setWidth 8 + Config.alphaLo

/-- The group word of four values, first value most significant (R21, R33). -/
def groupOfVals (v0 v1 v2 v3 : Val) : GroupWord := v0 ++ v1 ++ v2 ++ v3

/-- The group word of three bytes, first byte most significant (R21, R33). -/
def groupOfBytes (b0 b1 b2 : Byte) : GroupWord := b0 ++ b1 ++ b2

/-- `W[23:16], W[15:8], W[7:0]` (R33). -/
def bytesOfGroup (w : GroupWord) : List Byte :=
  [w.extractLsb' 16 8, w.extractLsb' 8 8, w.extractLsb' 0 8]

/-- `W[23:18], W[17:12], W[11:6], W[5:0]` (R33). -/
def valsOfGroup (w : GroupWord) : List Val :=
  [w.extractLsb' 18 6, w.extractLsb' 12 6, w.extractLsb' 6 6, w.extractLsb' 0 6]

/-- `PACK4` (R50): defined when all four elements are Symbols. -/
def pack4 (c0 c1 c2 c3 : Byte) : Option (List Byte) :=
  match s2v c0, s2v c1, s2v c2, s2v c3 with
  | some v0, some v1, some v2, some v3 => some (bytesOfGroup (groupOfVals v0 v1 v2 v3))
  | _, _, _, _ => none

/-- `UNPACK3` (R51): total. -/
def unpack3 (b0 b1 b2 : Byte) : List Byte := (valsOfGroup (groupOfBytes b0 b1 b2)).map v2s

/-- The three bytes of group `g` in the transaction of the given stamp: `PACK4` where it is defined, else the free value
of that group (R54). -/
def packGroup (stamp g : Nat) (c0 c1 c2 c3 : Byte) : List Byte :=
  match pack4 c0 c1 c2 c3 with
  | some bs => bs
  | none => bytesOfGroup (Config.packOor stamp g c0 c1 c2 c3)

/-- The loop of PACK from group `g` on (R52); an incomplete last group is never reached, the length check comes first. -/
def packBytes (stamp : Nat) : Nat → List Byte → List Byte
  | g, c0 :: c1 :: c2 :: c3 :: rest => packGroup stamp g c0 c1 c2 c3 ++ packBytes stamp (g + 1) rest
  | _, _ => []

/-- The loop of UNPACK (R53); an incomplete last group is never reached. -/
def unpackSyms : List Byte → List Byte
  | b0 :: b1 :: b2 :: rest => unpack3 b0 b1 b2 ++ unpackSyms rest
  | _ => []

/-- `LENOK(n)` (R60). -/
def lenOk (n : Nat) : Bool := decide (n % Config.groupSyms = 0) && decide (Config.minLen ≤ n)

/-- `FIRSTBAD(in)` (R61): the least index whose element fails `INALPHA`, with that element. -/
def firstBad : List Byte → Option (Nat × Byte)
  | [] => none
  | c :: cs => if inAlpha c then (firstBad cs).map fun p => (p.1 + 1, p.2) else some (0, c)

end Sys2Proof.Machine
end

