-- ==== Sys2Proof/Machine/Ops.lean ====
section
/-! DEFINITION. The shared operations of a transaction: answering (00_scope.md R8), taking an exception
(60_exceptions.md R74), accepting a request (70_reset_and_hazards.md R84) and taking a reset (R81, R82). There is no
return from an exception: an error response ends its transaction and nothing is restored (60_exceptions.md R75). -/

namespace Sys2Proof.Machine

/-- The response of `respond OK(out)` (R8): no error fields. -/
def okResponse (out : List Byte) : Response :=
  { status := .ok, out := out, errSym := none, errPos := none }

/-- The response of `raise`: the exception's status, `out = []`, and what it records (R8, R72, R74). -/
def errorResponse (x : Exception) : Response :=
  { status := exceptionStatus x, out := [], errSym := exceptionSym x, errPos := exceptionPos x }

/-- The label of the caller whose request is in progress (R80). -/
def callerOf (s : State) : Option Caller :=
  match s.ps with
  | .idle => none
  | .busy o => some o.caller

/-- Delivering a response: it goes to the caller whose request it answers (R80), `ps` goes to Idle, and the request is
dropped (R17, R18, R74). -/
def deliver (p : Response) (s : State) : State :=
  { s with
    ps := .idle
    delivered := s.delivered ++ [{ caller := callerOf s, response := p }]
    stamp := s.stamp + 1 }

/-- `respond OK(out)`: ends the transaction (R8). -/
def respondOk (out : List Byte) (s : State) : Host.Outcome State Fault Refusal :=
  .next (deliver (okResponse out) s)

/-- `raise`: taking an exception. One response with its status, nothing saved, no mode changed, no transfer of control,
`ps` to Idle (R74). -/
def raise (x : Exception) (s : State) : Host.Outcome State Fault Refusal :=
  .next (deliver (errorResponse x) s)

/-- Accepting the oldest waiting request takes `ps` from Idle to Busy; with none waiting nothing happens (R17, R78, R84). -/
def accept (s : State) : State :=
  match s.port with
  | [] => s
  | o :: rest => { s with ps := .busy o, port := rest }

/-- Taking a reset: `ps` to Idle, a transaction in progress is abandoned without a response (R81, R82). A request that
waits at the port was never accepted and stays (log entry 3). -/
def takeReset (s : State) : State := { s with ps := .idle, rst := false }

/-- The state in which offer `o` has just been accepted, no reset being asserted. -/
def withAccepted (o : Offer) (s : State) : State := { s with ps := .busy o, rst := false }

/-- The state with a table word's request accepted, as call 0 of host 0 (log entry 8); where the word holds no `op` field,
the state as it is. -/
def withTableWord (s : State) (nbits w : Nat) : State :=
  match tableWordRequest nbits w with
  | some r => withAccepted { caller := { host := 0, call := 0 }, req := r } s
  | none => s

end Sys2Proof.Machine
end

