-- ==== Sys2Proof/Machine/Codec.lean ====
section
/-! DEFINITION. The symbol codec: PACK and UNPACK (41_codec.md R52, R53). -/

namespace Sys2Proof.Machine

/-- PACK (R52): the length check, then every group in order. No other check: no alphabet, no minimum length. A group
with an element outside the alphabet gives free bytes (R54). -/
def execPack (data : List Byte) (s : State) : Host.Outcome State Fault Refusal :=
  if data.length % Config.groupSyms ≠ 0 then raise .symbolCount s
  else respondOk (packBytes s.stamp 0 data) s

/-- UNPACK (R53): the length check, then every group in order; every byte value is legal. -/
def execUnpack (data : List Byte) (s : State) : Host.Outcome State Fault Refusal :=
  if data.length % Config.groupBytes ≠ 0 then raise .byteCount s
  else respondOk (unpackSyms data) s

end Sys2Proof.Machine
end

