-- ==== Sys2Proof/Machine/Reserved.lean ====
section
/-! DEFINITION. The reserved command code `op = 3` (30_encoding.md R37). -/

namespace Sys2Proof.Machine

/-- `.op3` (R37): IllegalCommand, whatever the operand holds; it is not examined, not even its length. -/
def execOp3 (_data : List Byte) (s : State) : Host.Outcome State Fault Refusal :=
  raise .illegalCommand s

end Sys2Proof.Machine
end

