-- ==== Sys2Proof/Machine/Validator.lean ====
section
/-! DEFINITION. The password validator: VALIDATE (42_validator.md R62). -/

namespace Sys2Proof.Machine

/-- VALIDATE (R62): the length check first, the symbol scan second (60_exceptions.md R73); a verdict, no output. -/
def execValidate (data : List Byte) (s : State) : Host.Outcome State Fault Refusal :=
  if lenOk data.length then
    match firstBad data with
    | none => respondOk [] s
    | some (pos, sym) => raise (.forbiddenSymbol sym pos) s
  else raise .length s

end Sys2Proof.Machine
end

