-- ==== Sys2Proof/Machine/Dispatch.lean ====
section
/-! DEFINITION. The command map: the function `exec(op, in)` of 30_encoding.md R36, one arm per command. -/

namespace Sys2Proof.Machine

def exec (i : Instr) (s : State) : Host.Outcome State Fault Refusal :=
  match i with
  | .pack data => Sys2Proof.Machine.execPack data s
  | .unpack data => Sys2Proof.Machine.execUnpack data s
  | .validate data => Sys2Proof.Machine.execValidate data s
  | .op3 data => Sys2Proof.Machine.execOp3 data s

end Sys2Proof.Machine
end

