-- ==== Sys2Proof/Machine/Step.lean ====
section
/-! DEFINITION. One step of the block agent. A reset that is asserted comes first; a Busy block executes its
transaction, whole (20_memory.md R25); an Idle block accepts the oldest waiting request, or does nothing. -/

namespace Sys2Proof.Machine

/-- One step (10_state.md R17, 20_memory.md R25, 70_reset_and_hazards.md R81 to R84). -/
def step (s : State) : Host.Outcome State Fault Refusal :=
  if s.rst then .next (takeReset s)
  else
    match s.ps with
    | .busy o => exec (decode o.req) s
    | .idle => .next (accept s)

/-- The state with that command's request accepted, so that the very next step runs it (log entry 8). -/
def State.withFetchWord (s : State) (nbits w : Nat) : State := withTableWord s nbits w

end Sys2Proof.Machine
end

