-- ==== Sys2Proof/Machine/Lockstep.lean ====
section
/-! DEFINITION. The transient state inside a transaction (10_state.md R16) and the loops of R52, R53 and R62 one group
or one element at a time, by index. Nothing here is visible to the host (20_memory.md R25) and no State holds it; the
statements tie it to the atomic meanings (41_codec.md R56). -/

namespace Sys2Proof.Machine

/-- A codec transaction in progress: the current group and the output so far (R11, R16). -/
structure Progress where
  group : Nat
  out   : List Byte
  deriving DecidableEq, Repr

/-- Before the first group. -/
def progressStart : Progress := { group := 0, out := [] }

/-- One turn of PACK's loop: read `in[4g .. 4g+3]`, write `out[3g .. 3g+2]` (20_memory.md R20, R52). -/
def packTurn (stamp : Nat) (data : List Byte) (p : Progress) : Progress :=
  match memRead data (4 * p.group) 4 with
  | [c0, c1, c2, c3] =>
    { group := p.group + 1, out := memWrite p.out (3 * p.group) (packGroup stamp p.group c0 c1 c2 c3) }
  | _ => p

/-- One turn of UNPACK's loop: read `in[3g .. 3g+2]`, write `out[4g .. 4g+3]` (20_memory.md R20, R53). -/
def unpackTurn (data : List Byte) (p : Progress) : Progress :=
  match memRead data (3 * p.group) 3 with
  | [b0, b1, b2] => { group := p.group + 1, out := memWrite p.out (4 * p.group) (unpack3 b0 b1 b2) }
  | _ => p

/-- A VALIDATE scan in progress: the current index and the failure found, after which the scan stops (R61, R62). -/
structure Scan where
  index : Nat
  found : Option (Nat × Byte)
  deriving DecidableEq, Repr

/-- Before the first element. -/
def scanStart : Scan := { index := 0, found := none }

/-- One turn of VALIDATE's loop: read `in[i]` and test it (20_memory.md R20, R62). -/
def scanTurn (data : List Byte) (q : Scan) : Scan :=
  match q.found, memRead data q.index 1 with
  | none, [c] => if inAlpha c then { q with index := q.index + 1 } else { q with found := some (q.index, c) }
  | _, _ => q

end Sys2Proof.Machine
end

