-- ==== Sys2Proof/Machine/Port.lean ====
section
/-! DEFINITION. What the host can do to an instance, between any two steps: offer a request (70_reset_and_hazards.md
R84), assert reset (R81), read a response to a request of its own (20_memory.md R27, 60_exceptions.md R80), on records or
through a wire format (00_scope.md R6, `WIRE_FORMAT`). -/

namespace Sys2Proof.Machine

/-- A host offers a request, under the label of its call, to a block of the given `MAX_LEN`, at any time: it joins the waiting requests; a request
that is too long is refused at the boundary (R84, 93_implementation_defined.md U6). -/
def offerFor (maxLen : Option Nat) (c : Caller) (r : Request) (s : State) : Host.Outcome State Fault Refusal :=
  if r.wfFor maxLen then .next { s with port := s.port ++ [{ caller := c, req := r }] } else .refused .requestTooLong

/-- A host's offer at the `MAX_LEN` of Config. -/
def offer (c : Caller) (r : Request) (s : State) : Host.Outcome State Fault Refusal := offerFor Config.maxLen c r s

/-- The host asserts reset (R81). -/
def assertReset (s : State) : State := { s with rst := true }

/-- A delivery is for a call of the given host. -/
def isFor (host : Nat) (d : Delivery) : Bool :=
  match d.caller with
  | some c => decide (c.host = host)
  | none => false

/-- The oldest delivery for a host, and the others in their order. -/
def takeFor (host : Nat) : List Delivery → Option (Delivery × List Delivery)
  | [] => none
  | d :: rest => if isFor host d then some (d, rest) else (takeFor host rest).map fun p => (p.1, d :: p.2)

/-- A host reads the oldest response to a request of its own, with the label that says which; responses to other callers'
requests are neither shown to it nor taken (R80). -/
def takeResponse (host : Nat) (s : State) : Option (Delivery × State) :=
  (takeFor host s.delivered).map fun p => (p.1, { s with delivered := p.2 })

/-- The fields of a response the host may read: `out` only when the status is OK (70_reset_and_hazards.md R87). -/
def readOut (p : Response) : Option (List Byte) :=
  if p.status = .ok then some p.out else none

/-- `err_sym` and `err_pos`, only when the status is ForbiddenSymbolError (70_reset_and_hazards.md R87). -/
def readError (p : Response) : Option (Byte × Nat) :=
  if p.status = .forbiddenSymbolError then
    match p.errSym, p.errPos with
    | some sym, some pos => some (sym, pos)
    | _, _ => none
  else none

/-- A response that some command within the given `MAX_LEN` is answered with. -/
def Answerable (maxLen : Option Nat) (p : Response) : Prop :=
  ∃ i s t d, Instr.wfFor maxLen i = true ∧ exec i s = .next t ∧ t.delivered = s.delivered ++ [d] ∧ d.response = p

/-- A wire format of a block of the given `MAX_LEN`: how records are serialised (00_scope.md R6, 30_encoding.md R32, R34).
The spec fixes none, so every operation that needs one takes it as an argument. What is asked of it is the model's choice
(DESIGN CHOICE, log entry 9) and no more than a working link needs: a request that can be offered (R34) is read back, and
so is a response that such a request can be answered with. It may leave out longer requests (a length field of fixed width
under a finite `MAX_LEN`), and records that R32 calls illegal (OK with an error field: a format may send the bits of
`err_sym` always and tell its presence by the status). -/
structure WireFormat (maxLen : Option Nat) where
  writeRequest   : Request → List Bool
  readRequest    : List Bool → Option Request
  writeResponse  : Response → List Bool
  readResponse   : List Bool → Option Response
  request_back   : ∀ r, r.wfFor maxLen = true → readRequest (writeRequest r) = some r
  response_back  : ∀ p, Answerable maxLen p → readResponse (writeResponse p) = some p

/-- A host sends a frame: a frame that reads as no request is not delivered to the block (R34). -/
def offerFrame {maxLen : Option Nat} (wire : WireFormat maxLen) (c : Caller) (frame : List Bool) (s : State) :
    Host.Outcome State Fault Refusal :=
  match wire.readRequest frame with
  | none => .refused .badFrame
  | some r => offerFor maxLen c r s

/-- A host reads the oldest response to a request of its own as a frame, with its label. -/
def takeFrame {maxLen : Option Nat} (wire : WireFormat maxLen) (host : Nat) (s : State) :
    Option (Option Caller × List Bool × State) :=
  (takeResponse host s).map fun p => (p.1.caller, wire.writeResponse p.1.response, p.2)

end Sys2Proof.Machine
end

