-- ==== Sys2Proof/Safety.lean ====
section
/-! DEFINITION. The terms claims are stated in: what it is for a command to be answered, when two responses agree up to
the free bytes, the host's one hazard (70_reset_and_hazards.md R85), and the invariant of an instance. -/

namespace Sys2Proof

open Machine

/-- `exec i s` answers a next state in which response `p` has been delivered to the caller of the transaction in progress
and the block is Idle, and which leaves the two inputs, the waiting requests and the reset input, as they were
(60_exceptions.md R74, R80). It says nothing of `stamp`. (The port, the reset input, the list of deliveries and the caller's
label: log entries 2, 3, 4 and 13.) -/
def AnswersWith (i : Instr) (s : State) (p : Response) : Prop :=
  ∃ t, exec i s = .next t ∧ t.ps = .idle ∧
    t.delivered = s.delivered ++ [{ caller := callerOf s, response := p }] ∧ t.port = s.port ∧ t.rst = s.rst

/-- Every element is a Symbol. -/
def allSymbols (data : List Byte) : Bool := data.all inAlpha

/-- The command does not meet the open case of 41_codec.md R54: it is no PACK, or a PACK of Symbols only (R85). -/
def Instr.packSafe : Instr → Bool
  | .pack data => allSymbols data
  | .unpack _ => true
  | .validate _ => true
  | .op3 _ => true

/-- Two responses to command `i` agree in all the spec fixes: everything but the bytes of a PACK that is not safe, of
which the number is fixed and so are the bytes of every group of Symbols (R54). -/
def SameUpToDraws (i : Instr) (p q : Response) : Prop :=
  p.status = q.status ∧ p.errSym = q.errSym ∧ p.errPos = q.errPos ∧ p.out.length = q.out.length ∧
    (i.packSafe = true → p.out = q.out) ∧
    ∀ g, allSymbols (memRead i.data (4 * g) 4) = true → memRead p.out (3 * g) 3 = memRead q.out (3 * g) 3

/-- The legal values of a response record (30_encoding.md R32). -/
def responseWf (p : Response) : Bool :=
  match p.status with
  | .ok => p.errSym.isNone && p.errPos.isNone
  | .forbiddenSymbolError =>
    p.out.isEmpty && p.errPos.isSome &&
      match p.errSym with
      | some c => !inAlpha c
      | none => false
  | .symbolCountError => p.out.isEmpty && p.errSym.isNone && p.errPos.isNone
  | .byteCountError => p.out.isEmpty && p.errSym.isNone && p.errPos.isNone
  | .lengthError => p.out.isEmpty && p.errSym.isNone && p.errPos.isNone
  | .illegalCommand => p.out.isEmpty && p.errSym.isNone && p.errPos.isNone

/-- The requests an instance holds: the one in progress and those waiting. -/
def heldRequests (s : State) : List Request :=
  match s.ps with
  | .idle => s.port.map Offer.req
  | .busy o => o.req :: s.port.map Offer.req

/-- A delivery says to which caller it goes (R80) and holds a legal record (R32). -/
def deliveryWf (d : Delivery) : Bool := d.caller.isSome && responseWf d.response

/-- The invariant of an instance: it holds no request longer than `MAX_LEN` (R34), and every response delivered goes to a
caller and has a legal record (R32, R80). -/
def inv (maxLen : Option Nat) (s : State) : Bool :=
  (heldRequests s).all (Request.wfFor maxLen) && s.delivered.all deliveryWf

/-- What a link of a given `MAX_LEN` relies on: the requests held are within it, and every response delivered is one that a
command within it is answered with, so that every wire format reads it back. -/
def linkInv (maxLen : Option Nat) (s : State) : Prop :=
  (heldRequests s).all (Request.wfFor maxLen) = true ∧ ∀ d ∈ s.delivered, Answerable maxLen d.response

/-- The invariant of VALIDATE's scan (42_validator.md R61): it has found what `FIRSTBAD` gives, or it stands within the
operand and has seen Symbols only. -/
def scanInv (data : List Byte) (q : Scan) : Prop :=
  match q.found with
  | some r => q.index < data.length ∧ firstBad data = some r
  | none => q.index ≤ data.length ∧ allSymbols (data.take q.index) = true

/-- How many steps the block has work for: a reset, a transaction in progress, and two for each waiting request. -/
def pendingWork (s : State) : Nat :=
  2 * s.port.length +
    (match s.ps with
      | .idle => 0
      | .busy _ => 1) +
    if s.rst then 1 else 0

end Sys2Proof
end

