-- ==== Sys2Proof/Certificates/Slice0/Obligations.lean ====
section
/-! DEFINITION. The statements for the provers. Each docstring names the rule or the section of spec/ it formalises. -/

open Sys2Proof Sys2Proof.Machine

-- Reset, decoding, fetching.

/-- 10_state.md R19: the machine after reset is Idle, and a reset taken in any state leaves it Idle and delivers nothing
for a transaction in progress. (That the next step takes an asserted reset is how the model has the reset input: log
entry 3; the list of deliveries: log entry 4.) -/
def Obligations.ResetLeavesIdle : Prop :=
  State.reset.ps = .idle ∧
    ∀ s, s.rst = true →
      ∃ t, step s = .next t ∧ t.ps = .idle ∧ t.delivered = s.delivered

/-- 30_encoding.md R36: the command map, and the function `exec(op, in)`. -/
def Obligations.CommandMap : Prop :=
  ∀ (data : List Byte) (s : State),
    (decode { op := 0b00, data := data } = .pack data ∧ exec (.pack data) s = execPack data s) ∧
    (decode { op := 0b01, data := data } = .unpack data ∧ exec (.unpack data) s = execUnpack data s) ∧
    (decode { op := 0b10, data := data } = .validate data ∧ exec (.validate data) s = execValidate data s) ∧
    (decode { op := 0b11, data := data } = .op3 data ∧ AnswersWith (.op3 data) s
      { status := .illegalCommand, out := [], errSym := none, errPos := none })

/-- 30_encoding.md section 3: decoding and encoding are inverse both ways, so no `op` value has two meanings and no
element of the operand is dropped. -/
def Obligations.DecodeEncodeInverse : Prop :=
  (∀ i, decode (encode i) = i) ∧ ∀ r, encode (decode r) = r

/-- spec/opcode_table.json and 30_encoding.md section 3: the words of the four rows decode to their commands. That the
operand of such a word is empty is no word of the table's: it gives the operand no bits, and the model reads that as the
empty operand (DEDUCED: log entry 6). -/
def Obligations.TableWordsDecode : Prop :=
  decodeTableWord 8 0 = some (.pack []) ∧ decodeTableWord 8 1 = some (.unpack []) ∧
    decodeTableWord 8 2 = some (.validate []) ∧ decodeTableWord 8 3 = some (.op3 [])

/-- 30_encoding.md section 3, 20_memory.md section 4 and 10_state.md section 2: a step of a Busy block is `exec` of the
command its request decodes to, with nothing around it; and the state the host places a table word in runs that word's
command in its very next step. (The reset input, the operand of a table word, the request standing in Busy, how a word is
placed, and answering as a step of its own: log entries 3, 6, 7, 8 and 11.) -/
def Obligations.StepRunsDecodedCommand : Prop :=
  (∀ s o, s.rst = false → s.ps = .busy o → step s = exec (decode o.req) s) ∧
    ∀ (s : State) nbits w i, decodeTableWord nbits w = some i →
      ∃ o, decode o.req = i ∧ step (s.withFetchWord nbits w) = exec i { s with ps := .busy o, rst := false }

-- The symbol map.

/-- 40_symbol_map.md R43: the alphabet test, its bounds, their neighbours, and how many elements pass. -/
def Obligations.AlphabetTest : Prop :=
  (∀ c : Byte, inAlpha c = true ↔ 32 ≤ c.toNat ∧ c.toNat ≤ 95) ∧
    inAlpha 0x20 = true ∧ inAlpha 0x5F = true ∧ inAlpha 0x1F = false ∧ inAlpha 0x60 = false ∧
    inAlpha 0x00 = false ∧ inAlpha 0x7F = false ∧ inAlpha 0x80 = false ∧ inAlpha 0xFF = false ∧
    inAlpha 0x31 = true ∧
    ((List.range 256).filter fun n => inAlpha (BitVec.ofNat 8 n)).length = 64

/-- 40_symbol_map.md R40, R44: `S2V` of a Symbol is its code point less 0x20, and `S2V` has no value outside the
alphabet. -/
def Obligations.SymbolValue : Prop :=
  (∀ c : Byte, inAlpha c = true → ∃ v, s2v c = some v ∧ v.toNat = c.toNat - 32 ∧ 32 ≤ c.toNat) ∧
    (∀ c : Byte, inAlpha c = false → s2v c = none) ∧
    s2v 0x20 = some 0 ∧ s2v 0x5F = some 63 ∧ s2v 0x41 = some 33

/-- 40_symbol_map.md section R41, R42 (the order clause is the spec's own inference): `V2S` adds 0x20 without wrapping
and gives a Symbol, `S2V` and `V2S` are inverse, and the map keeps order. -/
def Obligations.SymbolMapBijection : Prop :=
  (∀ v : Val, (v2s v).toNat = v.toNat + 32 ∧ inAlpha (v2s v) = true ∧ s2v (v2s v) = some v) ∧
    (∀ (c : Byte) (v : Val), s2v c = some v → v2s v = c) ∧
    ∀ (c d : Byte) (v w : Val), s2v c = some v → s2v d = some w → (c < d ↔ v < w)

/-- 40_symbol_map.md R46 (the spec's own inference): the alphabet test as one comparison of the wrapped difference. -/
def Obligations.AlphabetOneComparison : Prop :=
  ∀ c : Byte, (inAlpha c = true ↔ (c - 0x20).toNat ≤ 63) ∧
    (inAlpha c = true ↔ (c - 0x20).getLsbD 7 = false ∧ (c - 0x20).getLsbD 6 = false)

-- The group word and the group primitives.

/-- 30_encoding.md R33: the layout of GROUP24 as numbers, as fields, and bit range by bit range. -/
def Obligations.GroupWordLayout : Prop :=
  (∀ v0 v1 v2 v3 : Val, (groupOfVals v0 v1 v2 v3).toNat =
    v0.toNat * 2 ^ 18 + v1.toNat * 2 ^ 12 + v2.toNat * 2 ^ 6 + v3.toNat ∧
      valsOfGroup (groupOfVals v0 v1 v2 v3) = [v0, v1, v2, v3]) ∧
  (∀ b0 b1 b2 : Byte, (groupOfBytes b0 b1 b2).toNat =
    b0.toNat * 2 ^ 16 + b1.toNat * 2 ^ 8 + b2.toNat ∧ bytesOfGroup (groupOfBytes b0 b1 b2) = [b0, b1, b2]) ∧
  ∀ w : GroupWord, ∃ v0 v1 v2 v3 : Val, ∃ b0 b1 b2 : Byte,
    valsOfGroup w = [v0, v1, v2, v3] ∧ groupOfVals v0 v1 v2 v3 = w ∧
    bytesOfGroup w = [b0, b1, b2] ∧ groupOfBytes b0 b1 b2 = w ∧
    b0.extractLsb' 2 6 = v0 ∧ b0.extractLsb' 0 2 = v1.extractLsb' 4 2 ∧
    b1.extractLsb' 4 4 = v1.extractLsb' 0 4 ∧ b1.extractLsb' 0 4 = v2.extractLsb' 2 4 ∧
    b2.extractLsb' 6 2 = v2.extractLsb' 0 2 ∧ b2.extractLsb' 0 6 = v3

/-- 41_codec.md section 1, PACK4 (the shift and mask form is the spec's own inference): on the values of four Symbols
`PACK4` is what the shifts and masks compute. -/
def Obligations.PackShiftMaskForm : Prop :=
  ∀ (c0 c1 c2 c3 : Byte) (w0 w1 w2 w3 : Val),
    s2v c0 = some w0 → s2v c1 = some w1 → s2v c2 = some w2 → s2v c3 = some w3 →
    let v0 := w0.setWidth 8
    let v1 := w1.setWidth 8
    let v2 := w2.setWidth 8
    let v3 := w3.setWidth 8
    pack4 c0 c1 c2 c3 =
      some [(v0 <<< 2) ||| (v1 >>> 4), ((v1 &&& 0x0F) <<< 4) ||| (v2 >>> 2), ((v2 &&& 0x03) <<< 6) ||| v3]

/-- 41_codec.md section 1, UNPACK3 (the shift and mask form is the spec's own inference): the shifts and masks, with
0x20 added to each value, compute `UNPACK3` of any three bytes. -/
def Obligations.UnpackShiftMaskForm : Prop :=
  ∀ b0 b1 b2 : Byte, unpack3 b0 b1 b2 =
    [(b0 >>> 2) + 0x20, (((b0 &&& 0x03) <<< 4) ||| (b1 >>> 4)) + 0x20,
      (((b1 &&& 0x0F) <<< 2) ||| (b2 >>> 6)) + 0x20, (b2 &&& 0x3F) + 0x20]

/-- 41_codec.md section 3, lock-step (the spec's own inference): of the three bytes of a group of Symbols the first
depends on lanes 0 and 1 alone, the second on lanes 1 and 2, the third on lanes 2 and 3. -/
def Obligations.PackByteDependsOnTwoLanes : Prop :=
  ∀ (c0 c1 c2 c3 d0 d1 d2 d3 x0 x1 x2 y0 y1 y2 : Byte),
    pack4 c0 c1 c2 c3 = some [x0, x1, x2] → pack4 d0 d1 d2 d3 = some [y0, y1, y2] →
    (c0 = d0 → c1 = d1 → x0 = y0) ∧ (c1 = d1 → c2 = d2 → x1 = y1) ∧ (c2 = d2 → c3 = d3 → x2 = y2)

-- The commands: where each completes, with what response.

/-- 41_codec.md R52, R54: PACK answers SymbolCountError exactly when the length is no multiple of 4, and otherwise OK
with three bytes for each group, those of `PACK4` for every group of four Symbols; the bytes of other groups are left
open (log entry 1). No element value raises an error. -/
def Obligations.PackAnswers : Prop :=
  ∀ (data : List Byte) (s : State),
    (data.length % 4 ≠ 0 →
      AnswersWith (.pack data) s { status := .symbolCountError, out := [], errSym := none, errPos := none }) ∧
    (data.length % 4 = 0 →
      ∃ out, AnswersWith (.pack data) s { status := .ok, out := out, errSym := none, errPos := none } ∧
        out.length = 3 * data.length / 4 ∧
        ∀ g, g < data.length / 4 → ∃ c0 c1 c2 c3, memRead data (4 * g) 4 = [c0, c1, c2, c3] ∧
          (allSymbols [c0, c1, c2, c3] = true → pack4 c0 c1 c2 c3 = some (memRead out (3 * g) 3)))

/-- 41_codec.md R53: UNPACK answers ByteCountError exactly when the length is no multiple of 3, and otherwise OK with
four symbols for each group, those of `UNPACK3`. -/
def Obligations.UnpackAnswers : Prop :=
  ∀ (data : List Byte) (s : State),
    (data.length % 3 ≠ 0 →
      AnswersWith (.unpack data) s { status := .byteCountError, out := [], errSym := none, errPos := none }) ∧
    (data.length % 3 = 0 →
      ∃ out, AnswersWith (.unpack data) s { status := .ok, out := out, errSym := none, errPos := none } ∧
        out.length = 4 * data.length / 3 ∧ allSymbols out = true ∧
        ∀ g, g < data.length / 3 → ∃ b0 b1 b2, memRead data (3 * g) 3 = [b0, b1, b2] ∧
          memRead out (4 * g) 4 = unpack3 b0 b1 b2)

/-- 42_validator.md R62: VALIDATE answers LengthError when the length is no multiple of 4 or below 16; otherwise
ForbiddenSymbolError with the first element outside the alphabet and its index; otherwise OK. `out` is always empty. -/
def Obligations.ValidateAnswers : Prop :=
  ∀ (data : List Byte) (s : State),
    (¬(data.length % 4 = 0 ∧ 16 ≤ data.length) →
      AnswersWith (.validate data) s { status := .lengthError, out := [], errSym := none, errPos := none }) ∧
    (data.length % 4 = 0 → 16 ≤ data.length →
      (allSymbols data = true →
        AnswersWith (.validate data) s { status := .ok, out := [], errSym := none, errPos := none }) ∧
      ∀ pos sym, data[pos]? = some sym → inAlpha sym = false → allSymbols (data.take pos) = true →
        AnswersWith (.validate data) s
          { status := .forbiddenSymbolError, out := [], errSym := some sym, errPos := some pos })

/-- 30_encoding.md R37: `op = 3` is answered IllegalCommand, code 5, whatever the operand holds, and the block is Idle
afterwards. -/
def Obligations.ReservedCommandAnswers : Prop :=
  ∀ (data : List Byte) (s : State),
    decode { op := 3, data := data } = .op3 data ∧ statusCode .illegalCommand = 5 ∧
    AnswersWith (.op3 data) s { status := .illegalCommand, out := [], errSym := none, errPos := none }

/-- 42_validator.md R60: `LENOK` and its corner cases. -/
def Obligations.LengthCheck : Prop :=
  (∀ n, lenOk n = true ↔ n % 4 = 0 ∧ 16 ≤ n) ∧
    [0, 4, 8, 12, 13, 15, 17, 18, 19].all (fun n => !lenOk n) = true ∧ lenOk 16 = true ∧ lenOk 20 = true

/-- 42_validator.md R61: `FIRSTBAD` is the least index whose element is outside the alphabet, or none. -/
def Obligations.FirstBadIsLeast : Prop :=
  ∀ data : List Byte,
    (firstBad data = none ↔ ∀ c ∈ data, inAlpha c = true) ∧
    ∀ pos sym, firstBad data = some (pos, sym) ↔
      data[pos]? = some sym ∧ inAlpha sym = false ∧ ∀ k c, k < pos → data[k]? = some c → inAlpha c = true

/-- 20_memory.md section 4 and 60_exceptions.md section 1 (R25, R74), the frame of all four commands: when `exec` gives a
next state, the block is Idle, one response has been added after those delivered before, to the caller of the transaction
in progress, and the waiting requests and the reset input are as they were. There is no other state of the spec's. (The
port, the reset input, the list of deliveries and the caller's label are the model's: log entries 2, 3, 4 and 13.) -/
def Obligations.CommandFrame : Prop :=
  ∀ i s t, exec i s = .next t →
    t.ps = .idle ∧ t.port = s.port ∧ t.rst = s.rst ∧ ∃ d, t.delivered = s.delivered ++ [d] ∧
      d.caller = callerOf s ∧ responseWf d.response = true

-- Errors.

/-- 60_exceptions.md R70: the codes, and which command answers which status and when. -/
def Obligations.StatusCodesAndCauses : Prop :=
  (statusCode .ok = 0 ∧ statusCode .symbolCountError = 1 ∧ statusCode .byteCountError = 2 ∧
    statusCode .lengthError = 3 ∧ statusCode .forbiddenSymbolError = 4 ∧ statusCode .illegalCommand = 5) ∧
  (∀ x, statusCode x ≠ 6 ∧ statusCode x ≠ 7) ∧
  ∀ i s p, AnswersWith i s p →
    (p.status = .ok → ∀ data, i ≠ .op3 data) ∧
    (p.status = .symbolCountError ↔ ∃ data, i = .pack data ∧ data.length % 4 ≠ 0) ∧
    (p.status = .byteCountError ↔ ∃ data, i = .unpack data ∧ data.length % 3 ≠ 0) ∧
    (p.status = .lengthError ↔
      ∃ data, i = .validate data ∧ (data.length % 4 ≠ 0 ∨ data.length < 16)) ∧
    (p.status = .forbiddenSymbolError ↔
      ∃ data, i = .validate data ∧ data.length % 4 = 0 ∧ 16 ≤ data.length ∧ ∃ c ∈ data, inAlpha c = false) ∧
    (p.status = .illegalCommand ↔ ∃ data, i = .op3 data)

/-- 30_encoding.md R38 (e) with 93_implementation_defined.md U5: a host reads every code the block produces back, and
refuses 6 and 7. -/
def Obligations.StatusCodesReadBack : Prop :=
  (∀ x, statusOfCode (statusCode x) = .ok x) ∧
    statusOfCode 6 = .error .unknownStatus ∧ statusOfCode 7 = .error .unknownStatus

/-- 60_exceptions.md R72: only ForbiddenSymbolError records anything, an element of the request and its index, and
every error has `out = []`. -/
def Obligations.ErrorRecords : Prop :=
  ∀ i s p, AnswersWith i s p →
    (p.status ≠ .ok → p.out = []) ∧
    (p.status ≠ .forbiddenSymbolError → p.errSym = none ∧ p.errPos = none) ∧
    (p.status = .forbiddenSymbolError →
      ∃ pos sym, p.errPos = some pos ∧ p.errSym = some sym ∧ i.data[pos]? = some sym)

/-- 42_validator.md section R63 (the last clause is the spec's own inference): the element reported is outside the
alphabet and every element before it is inside. -/
def Obligations.ForbiddenSymbolIsFirst : Prop :=
  ∀ data s p, AnswersWith (.validate data) s p → p.status = .forbiddenSymbolError →
    ∃ pos sym, p.errPos = some pos ∧ p.errSym = some sym ∧ data[pos]? = some sym ∧ inAlpha sym = false ∧
      allSymbols (data.take pos) = true ∧ lenOk data.length = true

/-- 60_exceptions.md R73: the length check comes before the symbol scan, of several forbidden elements the one of
lowest index is reported, and `op = 3` is settled before `in` is looked at. -/
def Obligations.ErrorPriority : Prop :=
  (∀ data s p, lenOk data.length = false → AnswersWith (.validate data) s p → p.status = .lengthError) ∧
    (∀ data s p i j c d, i < j → data[i]? = some c → inAlpha c = false → data[j]? = some d →
      inAlpha d = false → AnswersWith (.validate data) s p → p.errPos ≠ some j) ∧
    ∀ data data' s p, AnswersWith (.op3 data) s p → AnswersWith (.op3 data') s p

/-- 60_exceptions.md R74: on an exception one response with the status, `out = []` and the error fields is delivered to the
caller of the transaction in progress and the block goes to Idle; the inputs are as they were. (The list of deliveries and
the caller's label: log entries 4 and 13.) -/
def Obligations.ErrorDelivery : Prop :=
  ∀ (x : Exception) (s : State), ∃ t p, raise x s = .next t ∧ t.ps = .idle ∧
    t.delivered = s.delivered ++ [{ caller := callerOf s, response := p }] ∧
    t.port = s.port ∧ t.rst = s.rst ∧ p.status = exceptionStatus x ∧ p.status ≠ .ok ∧ p.out = [] ∧
    (∀ sym pos, x = .forbiddenSymbol sym pos → p.errSym = some sym ∧ p.errPos = some pos) ∧
    ((∀ sym pos, x ≠ .forbiddenSymbol sym pos) → p.errSym = none ∧ p.errPos = none)

/-- 60_exceptions.md R75: a command executed after an error is answered as if the failed one had never been issued, in
everything the spec fixes (all but the free bytes of log entry 1), and the block accepts it. -/
def Obligations.ErrorLeavesNothingBehind : Prop :=
  ∀ i s t p j q q', AnswersWith i s p → p.status ≠ .ok → exec i s = .next t →
    t.ps = .idle ∧ (AnswersWith j s q → AnswersWith j t q' → SameUpToDraws j q q')

-- What VALIDATE establishes, totality, determinism, no retention.

/-- 42_validator.md R64: VALIDATE answers OK exactly for a Password; then PACK answers OK with at least 12 bytes, every
one of them defined, and UNPACK of those bytes gives the password back. -/
def Obligations.ValidateOkEstablishes : Prop :=
  ∀ (data : List Byte) (s : State),
    ((∃ p, AnswersWith (.validate data) s p ∧ p.status = .ok) ↔
      data.length % 4 = 0 ∧ 16 ≤ data.length ∧ allSymbols data = true) ∧
    ((∃ p, AnswersWith (.validate data) s p ∧ p.status = .ok) →
      ∃ out, out.length = 3 * data.length / 4 ∧ 12 ≤ out.length ∧
        (∀ s', AnswersWith (.pack data) s' { status := .ok, out := out, errSym := none, errPos := none }) ∧
        ∀ s', AnswersWith (.unpack out) s' { status := .ok, out := data, errSym := none, errPos := none })

/-- 42_validator.md R65: VALIDATE answers every candidate, with one of three statuses, and the same response in every
state. -/
def Obligations.ValidateTotal : Prop :=
  ∀ data : List Byte, ∃ p, (∀ s, AnswersWith (.validate data) s p) ∧
    (∀ s q, AnswersWith (.validate data) s q → q = p) ∧
    (p.status = .ok ∨ p.status = .lengthError ∨ p.status = .forbiddenSymbolError)

/-- 41_codec.md R59: UNPACK, and PACK on Symbols, answer the same operand with the same response in every state, so
whatever came before. -/
def Obligations.CodecDeterministic : Prop :=
  ∀ (data : List Byte) (s s' : State) (p p' : Response),
    (AnswersWith (.unpack data) s p → AnswersWith (.unpack data) s' p' → p = p') ∧
    (allSymbols data = true → AnswersWith (.pack data) s p → AnswersWith (.pack data) s' p' → p = p')

/-- 20_memory.md section 6 and 10_state.md section 1: every command in every state is answered, and its response is a
function of the request alone but for the free bytes of a PACK outside the alphabet (log entry 1). -/
def Obligations.ResponseDependsOnRequestOnly : Prop :=
  ∀ i : Instr, (∀ s, ∃ p, AnswersWith i s p) ∧
    ∀ s s' p p', AnswersWith i s p → AnswersWith i s' p' → SameUpToDraws i p p'

/-- 10_state.md section 2 (no retention): after its response has been delivered, or after a reset, a block that executed
one caller's request is in the state of a block that executed any other, but for the delivery handed over. (The reset input
as a bit taken by the next step: log entry 3; the list of deliveries and the caller's label: log entries 4 and 13; the
step that answers: log entry 11. The model's own `stamp` counts answers and holds nothing of a request: log entry 1.) -/
def Obligations.NothingRetained : Prop :=
  ∀ (s : State) (o o' : Offer),
    (s.rst = false → ∃ (t : State) (d d' : Delivery), t.ps = .idle ∧
      step { s with ps := .busy o } = .next { t with delivered := s.delivered ++ [d] } ∧
      step { s with ps := .busy o' } = .next { t with delivered := s.delivered ++ [d'] }) ∧
    (s.rst = true → step { s with ps := .busy o } = step { s with ps := .busy o' })

-- The codec's laws.

/-- 41_codec.md R55: the round trips through the commands, and the bijection of single groups. -/
def Obligations.CodecRoundTrip : Prop :=
  (∀ data : List Byte, data.length % 4 = 0 → allSymbols data = true → ∃ out, ∀ s,
    AnswersWith (.pack data) s { status := .ok, out := out, errSym := none, errPos := none } ∧
    AnswersWith (.unpack out) s { status := .ok, out := data, errSym := none, errPos := none }) ∧
  (∀ data : List Byte, data.length % 3 = 0 → ∃ out, ∀ s,
    AnswersWith (.unpack data) s { status := .ok, out := out, errSym := none, errPos := none } ∧
    AnswersWith (.pack out) s { status := .ok, out := data, errSym := none, errPos := none }) ∧
  (∀ c0 c1 c2 c3, allSymbols [c0, c1, c2, c3] = true →
    ∃ b0 b1 b2, pack4 c0 c1 c2 c3 = some [b0, b1, b2] ∧ unpack3 b0 b1 b2 = [c0, c1, c2, c3]) ∧
  ∀ b0 b1 b2, ∃ c0 c1 c2 c3, unpack3 b0 b1 b2 = [c0, c1, c2, c3] ∧ pack4 c0 c1 c2 c3 = some [b0, b1, b2]

/-- 41_codec.md section 3, R58 (the spec's own inference): PACK is injective on Symbols, UNPACK on all its legal inputs,
and every byte sequence of whole groups is the packing of exactly one Symbol sequence. -/
def Obligations.CodecInjective : Prop :=
  (∀ x y s s' p, x.length % 4 = 0 → y.length % 4 = 0 → allSymbols x = true → allSymbols y = true →
    AnswersWith (.pack x) s p → AnswersWith (.pack y) s' p → x = y) ∧
  (∀ x y s s' p, x.length % 3 = 0 → y.length % 3 = 0 →
    AnswersWith (.unpack x) s p → AnswersWith (.unpack y) s' p → x = y) ∧
  ∀ b : List Byte, b.length % 3 = 0 → ∃! x, allSymbols x = true ∧ ∀ s, AnswersWith (.pack x) s
    { status := .ok, out := b, errSym := none, errPos := none }

/-- 41_codec.md section 3, R56 (the spec's own inference): PACK and UNPACK of whole groups concatenate, so a host that
cuts a sequence at group boundaries gets the same output (70_reset_and_hazards.md R86). -/
def Obligations.CodecConcatenates : Prop :=
  (∀ x y s o o', x.length % 4 = 0 → allSymbols x = true → allSymbols y = true →
    AnswersWith (.pack x) s { status := .ok, out := o, errSym := none, errPos := none } →
    AnswersWith (.pack y) s { status := .ok, out := o', errSym := none, errPos := none } →
    AnswersWith (.pack (x ++ y)) s { status := .ok, out := o ++ o', errSym := none, errPos := none }) ∧
  ∀ x y s o o', x.length % 3 = 0 →
    AnswersWith (.unpack x) s { status := .ok, out := o, errSym := none, errPos := none } →
    AnswersWith (.unpack y) s { status := .ok, out := o', errSym := none, errPos := none } →
    AnswersWith (.unpack (x ++ y)) s { status := .ok, out := o ++ o', errSym := none, errPos := none }

/-- 41_codec.md section 3, R57 (the spec's own inference): UNPACK yields Symbols only, and VALIDATE of its output answers
OK exactly from 12 bytes on, LengthError below. -/
def Obligations.UnpackYieldsSymbols : Prop :=
  ∀ (b : List Byte) (s s' : State) (p q : Response), b.length % 3 = 0 →
    AnswersWith (.unpack b) s p → AnswersWith (.validate p.out) s' q →
    allSymbols p.out = true ∧ (q.status = .ok ↔ 12 ≤ b.length) ∧ (q.status = .lengthError ↔ b.length < 12)

/-- 41_codec.md section 3, R56 as an invariant of the loops (the spec's own inference; 10_state.md R16): after `n` groups
the output so far is that of the first `n` groups alone, and after all groups it is the output of the command; the scan of
VALIDATE stops at what `FIRSTBAD` gives. (The free bytes: log entry 1; that the loops stand outside State: log entry 7.) -/
def Obligations.LockstepRefinesCommands : Prop :=
  (∀ (data : List Byte) (stamp n : Nat), 4 * n ≤ data.length →
    (packTurn stamp data)^[n] progressStart =
      { group := n, out := packBytes stamp 0 (memRead data 0 (4 * n)) } ∧
    ((packTurn stamp data)^[n] progressStart).out.length = 3 * n) ∧
  (∀ (data : List Byte) (s : State), data.length % 4 = 0 → AnswersWith (.pack data) s
    { status := .ok, out := ((packTurn s.stamp data)^[data.length / 4] progressStart).out,
      errSym := none, errPos := none }) ∧
  (∀ (data : List Byte) (n : Nat), 3 * n ≤ data.length →
    (unpackTurn data)^[n] progressStart = { group := n, out := unpackSyms (memRead data 0 (3 * n)) } ∧
    ((unpackTurn data)^[n] progressStart).out.length = 4 * n) ∧
  (∀ (data : List Byte) (s : State), data.length % 3 = 0 → AnswersWith (.unpack data) s
    { status := .ok, out := ((unpackTurn data)^[data.length / 3] progressStart).out,
      errSym := none, errPos := none }) ∧
  ∀ data : List Byte, ((scanTurn data)^[data.length] scanStart).found = firstBad data

/-- 41_codec.md section 3, R56 as an invariant of one turn (the spec's own inference; 10_state.md R16), from every progress
that has it and not only from the start: the output so far is that of the first `group` groups alone, within the operand.
A turn of PACK's loop and of UNPACK's keeps it, goes one group on while a group is left, and stands still when none is. The
scan of VALIDATE keeps that it has either found what `FIRSTBAD` gives or seen Symbols only. Each start has it. (The free
bytes: log entry 1; that the loops stand outside State: log entry 7.) -/
def Obligations.LoopTurnsKeepInvariant : Prop :=
  (∀ (stamp : Nat) (data : List Byte),
    progressStart.out = packBytes stamp 0 (memRead data 0 (4 * progressStart.group)) ∧
    4 * progressStart.group ≤ data.length ∧
    ∀ p : Progress, 4 * p.group ≤ data.length → p.out = packBytes stamp 0 (memRead data 0 (4 * p.group)) →
      4 * (packTurn stamp data p).group ≤ data.length ∧
      (packTurn stamp data p).out =
        packBytes stamp 0 (memRead data 0 (4 * (packTurn stamp data p).group)) ∧
      (4 * p.group + 4 ≤ data.length → (packTurn stamp data p).group = p.group + 1) ∧
      (data.length < 4 * p.group + 4 → packTurn stamp data p = p)) ∧
  (∀ data : List Byte,
    progressStart.out = unpackSyms (memRead data 0 (3 * progressStart.group)) ∧
    3 * progressStart.group ≤ data.length ∧
    ∀ p : Progress, 3 * p.group ≤ data.length → p.out = unpackSyms (memRead data 0 (3 * p.group)) →
      3 * (unpackTurn data p).group ≤ data.length ∧
      (unpackTurn data p).out = unpackSyms (memRead data 0 (3 * (unpackTurn data p).group)) ∧
      (3 * p.group + 3 ≤ data.length → (unpackTurn data p).group = p.group + 1) ∧
      (data.length < 3 * p.group + 3 → unpackTurn data p = p)) ∧
  ∀ data : List Byte, scanInv data scanStart ∧ ∀ q, scanInv data q →
    scanInv data (scanTurn data q) ∧
    (q.index = data.length → q.found = firstBad data ∧ scanTurn data q = q)

-- The protocol: acceptance, delivery, reset, order.

/-- 10_state.md section 2, protocol state: accepting takes `ps` from Idle to Busy, delivering takes it back to Idle, reset
takes it to Idle from either, and nothing else moves it. Rests on the model's choices: that of several waiting requests
the oldest is the one accepted (log entry 2), that the reset input is a bit which the next step takes before anything else
(log entry 3), that the response joins a list under its caller's label (log entries 4 and 13), and that accepting,
answering and idling are steps of their own (log entry 11). -/
def Obligations.ProtocolStateTransitions : Prop :=
  (∀ (s : State) o rest, s.rst = false → s.ps = .idle → s.port = o :: rest →
    ∃ t, step s = .next t ∧ t.ps = .busy o) ∧
  (∀ s o, s.rst = false → s.ps = .busy o → ∃ t p, step s = .next t ∧ t.ps = .idle ∧
    t.delivered = s.delivered ++ [{ caller := some o.caller, response := p }] ∧ AnswersWith (decode o.req) s p) ∧
  (∀ s, s.rst = true → ∃ t, step s = .next t ∧ t.ps = .idle) ∧
  ∀ s, s.rst = false → s.ps = .idle → s.port = [] → ∃ t, step s = .next t ∧ t.ps = .idle

/-- 70_reset_and_hazards.md sections 1 and 2, 60_exceptions.md section 3: the frame of the steps that run no command. That
several requests wait in the order they were offered (log entry 2), that reset leaves them waiting and is taken once (log
entry 3), and that an Idle block with none waiting takes a step that changes nothing (log entry 11), are the model's
choices. -/
def Obligations.NonCommandStepFrames : Prop :=
  (∀ s, s.rst = true → step s = .next { s with ps := .idle, rst := false }) ∧
  (∀ (s : State) o rest, s.rst = false → s.ps = .idle → s.port = o :: rest →
    step s = .next { s with ps := .busy o, port := rest }) ∧
  ∀ s, s.rst = false → s.ps = .idle → s.port = [] → step s = .next s

/-- 70_reset_and_hazards.md R84: a request is accepted only by an Idle block; one offered while the block is Busy, by any
caller, waits, is not lost, and is accepted after the response of the transaction in progress; responses come back in
request order. (The port and the list of deliveries: log entries 2 and 4; the reset input as a bit, and accepting and
answering as steps of their own: log entries 3 and 11; the offer is made at the spec's default `MAX_LEN`: log entry 5; the
caller's label: log entry 13.) -/
def Obligations.OneTransactionAtATime : Prop :=
  (∀ s t o, step s = .next t → t.ps = .busy o → s.rst = false → s.ps = .idle ∧ o ∈ s.port) ∧
  ∀ (s : State) (o : Offer) (c : Caller) (r : Request), s.rst = false → s.ps = .busy o → s.port = [] →
    ∃ t1 t2 t3 t4 p p', offer c r s = .next t1 ∧
      t1.ps = .busy o ∧ t1.port = [{ caller := c, req := r }] ∧ t1.delivered = s.delivered ∧
      step t1 = .next t2 ∧ t2.ps = .idle ∧ t2.port = [{ caller := c, req := r }] ∧
      t2.delivered = s.delivered ++ [{ caller := some o.caller, response := p }] ∧
      step t2 = .next t3 ∧ t3.ps = .busy { caller := c, req := r } ∧ t3.port = [] ∧
      step t3 = .next t4 ∧ t4.ps = .idle ∧
      t4.delivered = s.delivered ++
        [{ caller := some o.caller, response := p }, { caller := some c, response := p' }] ∧
      AnswersWith (decode o.req) s p ∧ AnswersWith (decode r) t3 p'

/-- 60_exceptions.md section 3 (R80), over every step from every state, with a reset or without: a step delivers nothing,
or one response, that of the request in progress, to the caller of that request. So a request that a reset abandons (R82)
takes no other request's response, and no order is needed to pair the two. (The reset
input: log entry 3; the list of deliveries: log entry 4; that answering is a step: log entry 11; the caller's label: log
entry 13.) -/
def Obligations.ResponseGoesToItsCaller : Prop :=
  ∀ s t, step s = .next t →
    t.delivered = s.delivered ∨
    ∃ o p, s.rst = false ∧ s.ps = .busy o ∧ AnswersWith (decode o.req) s p ∧
      t.delivered = s.delivered ++ [{ caller := some o.caller, response := p }]

/-- 60_exceptions.md section 3 (R80): what a host takes is a response to a request of its own; every other delivery, before
it or after it, stays in place for its own caller; and a host for which there is none takes nothing. The model's choices:
that unread responses stand in a list in the order of their delivery, and that a host takes the oldest of its own (log
entry 4), and the caller's label (log entry 13). -/
def Obligations.HostTakesOnlyItsOwn : Prop :=
  (∀ host s d t, takeResponse host s = some (d, t) →
    ∃ c before after, d.caller = some c ∧ c.host = host ∧ s.delivered = before ++ d :: after ∧
      t = { s with delivered := before ++ after } ∧
      ∀ e ∈ before, ∀ c', e.caller = some c' → c'.host ≠ host) ∧
  ∀ host s, takeResponse host s = none ↔ ∀ e ∈ s.delivered, ∀ c, e.caller = some c → c.host ≠ host

/-- 60_exceptions.md section 3 (R79): the block does not know who its caller is. Two Busy blocks that differ in the
caller's label alone answer with the same response and are equal afterwards, but for the label it goes to; and whichever
caller's request stands first is accepted. (The label: log entry 13; the order: log entry 2; the reset input, the
list of deliveries, the two steps of a transaction: log entries 3, 4 and 11.) -/
def Obligations.CallerUnknownToBlock : Prop :=
  ∀ (s : State) (c c' : Caller) (r : Request), s.rst = false →
    (∃ (t : State) (p : Response),
      step { s with ps := .busy { caller := c, req := r } } =
        .next { t with delivered := s.delivered ++ [{ caller := some c, response := p }] } ∧
      step { s with ps := .busy { caller := c', req := r } } =
        .next { t with delivered := s.delivered ++ [{ caller := some c', response := p }] }) ∧
    ∀ rest, step { s with ps := .idle, port := { caller := c, req := r } :: rest } =
      .next { s with ps := .busy { caller := c, req := r }, port := rest }

/-- 70_reset_and_hazards.md R81: reset puts `ps` to Idle, and no command is answered otherwise after it than in any other
state, before it or later, in anything the spec fixes (all but the free bytes of log entry 1). (That the next step takes an
asserted reset: log entry 3.) -/
def Obligations.ResetChangesNoResponse : Prop :=
  ∀ s, s.rst = true → ∃ t, step s = .next t ∧ t.ps = .idle ∧
    ∀ i u p q, AnswersWith i u p → AnswersWith i t q → SameUpToDraws i p q

/-- 70_reset_and_hazards.md R82: a reset that falls while the block is Busy abandons the transaction: no response, not
even an error, and the block is Idle. (That the next step takes an asserted reset: log entry 3; the list of deliveries: log
entry 4.) -/
def Obligations.ResetAbandonsTransaction : Prop :=
  ∀ (s : State) (o : Offer), s.ps = .busy o →
    ∃ t, step (assertReset s) = .next t ∧ t.ps = .idle ∧ t.delivered = s.delivered

/-- 70_reset_and_hazards.md section 3 and 20_memory.md section 6: without reset an Idle block answers every waiting request
with exactly one response, to its own caller, in request order, in finitely many steps, and is Idle again. (That several
requests may wait, in the order they were offered, is the model's choice: log entry 2; that unread responses stand in a
list in the order of their delivery: log entry 4; the caller's label: log entry 13; the reset input: log entry 3.
That a request takes two steps, accepting and answering, is DEDUCED: log entry 11.) -/
def Obligations.ServesRequestsInOrder : Prop :=
  ∀ s : State, s.ps = .idle → s.rst = false →
    ∃ t ds, core.run (2 * s.port.length) s = .next t ∧ t.ps = .idle ∧ t.port = [] ∧ t.rst = false ∧
      t.delivered = s.delivered ++ ds ∧
      List.Forall₂ (fun o d => d.caller = some o.caller ∧ ∃ u, AnswersWith (decode o.req) u d.response)
        s.port ds

/-- 70_reset_and_hazards.md section 3 and 60_exceptions.md section 2: no step stops, and every step with work to do has
less to do afterwards, so the block cannot hang or spin. That a block with no work takes a step that changes nothing is the
model's reading (DEDUCED from 60_exceptions.md section 3, the block acts only on a request: log entry 11); that a reset is
work until the next step takes it: log entry 3; that several requests may wait: log entry 2. -/
def Obligations.EveryStepProgresses : Prop :=
  ∀ s : State, ∃ t, step s = .next t ∧ (pendingWork s = 0 → t = s) ∧
    (0 < pendingWork s → pendingWork t < pendingWork s)

-- The invariant and the host's side.

/-- 30_encoding.md section 1 (R32, R34): every step keeps the invariant, from every state that has it. (The port, the list
of deliveries, the argument `MAX_LEN` and the caller's label are the model's: log entries 2, 4, 5 and 13.) -/
def Obligations.StepKeepsInvariant : Prop :=
  ∀ maxLen s t, inv maxLen s = true → step s = .next t → inv maxLen t = true

/-- 10_state.md section 3 and 30_encoding.md section 1 (R32, R34): the invariant holds after reset, for every `MAX_LEN` (an
argument: log entry 5). It is the model's choice that makes it true: `State.reset` has no request waiting (log entry 2) and
no response unread (log entry 4). The spec gives reset no value for either, and each of the two entries calls its choice
unsafe for a claim about what is there right after power-up, such as this one. -/
def Obligations.ResetHasInvariant : Prop := ∀ maxLen, inv maxLen State.reset = true

/-- 30_encoding.md section 1 and 70_reset_and_hazards.md section 2: every action of the host keeps the invariant. (The
forms of the actions are the model's: the port, reset, the list of deliveries, the argument `MAX_LEN`, the wire format,
the caller's label: log entries 2, 3, 4, 5, 9 and 13.) -/
def Obligations.HostActionsKeepInvariant : Prop :=
  ∀ maxLen s, inv maxLen s = true →
    (∀ c r t, offerFor maxLen c r s = .next t → inv maxLen t = true) ∧
    (∀ (wire : WireFormat maxLen) c frame t, offerFrame wire c frame s = .next t → inv maxLen t = true) ∧
    inv maxLen (assertReset s) = true ∧
    ∀ host d t, takeResponse host s = some (d, t) → inv maxLen t = true ∧ responseWf d.response = true

/-- 93_implementation_defined.md U6 (`MAX_LEN` open, default unbounded): a request longer than `MAX_LEN` is refused at the
boundary, no other is, and the default refuses none. The model's choices: that every request within `MAX_LEN` joins the end
of a port of any length (log entry 2), that `MAX_LEN` is an argument of the offer with the spec's default where none is
given (log entry 5), and the caller's label (log entry 13). -/
def Obligations.OfferWithinMaxLen : Prop :=
  (∀ n (c : Caller) (r : Request) (s : State), r.data.length ≤ n →
    offerFor (some n) c r s = .next { s with port := s.port ++ [{ caller := c, req := r }] }) ∧
  (∀ n (c : Caller) (r : Request) (s : State), n < r.data.length →
    offerFor (some n) c r s = .refused .requestTooLong) ∧
  ∀ c r (s : State), offer c r s = .next { s with port := s.port ++ [{ caller := c, req := r }] }

/-- 30_encoding.md section 1 (R34) and 93_implementation_defined.md U7: under any wire format a frame offers the request it
reads as, so that the frame of a request within `MAX_LEN` offers that request; a frame that reads as no request is not
delivered to the block; and what a host takes as a frame is what it would take as a record, and reads back as it if some
request within `MAX_LEN` is answered with it. (What a wire format is: log entry 9; how a request is queued: log entries 2
and 5; which response a host takes: log entry 4; the caller's label: log entry 13.) -/
def Obligations.FramesCarryRequests : Prop :=
  ∀ (maxLen : Option Nat) (wire : WireFormat maxLen) (c : Caller) (s : State),
    (∀ frame r, wire.readRequest frame = some r → offerFrame wire c frame s = offerFor maxLen c r s) ∧
    (∀ r, r.wfFor maxLen = true → offerFrame wire c (wire.writeRequest r) s =
      .next { s with port := s.port ++ [{ caller := c, req := r }] }) ∧
    (∀ frame, wire.readRequest frame = none → offerFrame wire c frame s = .refused .badFrame) ∧
    ∀ host d t, takeResponse host s = some (d, t) →
      ∃ frame, takeFrame wire host s = some (d.caller, frame, t) ∧
        (Answerable maxLen d.response → wire.readResponse frame = some d.response)

/-- 30_encoding.md section 1 (R32, R34): what FramesCarryRequests asks of a response holds of every one delivered. After
reset, and from every state that has it after every step and every action of a host, the requests held are within
`MAX_LEN` and each response delivered is one that a command within `MAX_LEN` is answered with. (The forms of the actions:
log entries 2, 3, 4, 5, 9 and 13. The clause about reset is true because `State.reset` has nothing waiting and nothing
unread, choices of log entries 2 and 4 that are unsafe for a claim about power-up.) -/
def Obligations.LinkInvariantKept : Prop :=
  ∀ maxLen : Option Nat, linkInv maxLen State.reset ∧ ∀ s, linkInv maxLen s →
    (∀ t, step s = .next t → linkInv maxLen t) ∧
    (∀ c r t, offerFor maxLen c r s = .next t → linkInv maxLen t) ∧
    (∀ (wire : WireFormat maxLen) c frame t, offerFrame wire c frame s = .next t → linkInv maxLen t) ∧
    linkInv maxLen (assertReset s) ∧
    ∀ host d t, takeResponse host s = some (d, t) → linkInv maxLen t ∧ Answerable maxLen d.response

/-- 70_reset_and_hazards.md section 2 (R87): of a response the block delivers, the host reads `out` exactly when the
status is OK and the error fields exactly when it is ForbiddenSymbolError. -/
def Obligations.HostReadsWhatIsPresent : Prop :=
  ∀ i s p, AnswersWith i s p →
    (p.status = .ok ↔ readOut p = some p.out) ∧ (p.status ≠ .ok ↔ readOut p = none) ∧
    (p.status = .forbiddenSymbolError ↔ ∃ e, readError p = some e) ∧
    ∀ sym pos, readError p = some (sym, pos) ↔ p.errSym = some sym ∧ p.errPos = some pos

/-- 60_exceptions.md section 3 (R80): a step of one instance leaves every other instance as it was, and the steps of two
instances commute. (Instances as a list, moved by an index: log entry 10.) -/
def Obligations.InstancesIndependent : Prop :=
  (∀ sys sys' k, stepInstance k sys = .next sys' →
    (∃ s t, sys[k]? = some s ∧ step s = .next t ∧ sys'[k]? = some t) ∧
    ∀ j, j ≠ k → sys'[j]? = sys[j]?) ∧
  ∀ (sys : List State) (j k : Nat), j ≠ k → j < sys.length → k < sys.length →
    ∃ a b c, stepInstance j sys = .next a ∧ stepInstance k a = .next c ∧
      stepInstance k sys = .next b ∧ stepInstance j b = .next c
end

