-- ==== Sys2Proof/Laws/Operands.lean ====
section
/-! SUPPORT. The datapath: one lemma per primitive that says all it can answer. -/

namespace Sys2Proof.Machine

/-- The constants of R5 agree with one another (90_conflicts.md C5). -/
theorem constants_agree :
    Config.alphaSize = 64 ∧ Config.groupW = Config.groupBytes * Config.byteW ∧
      2 ^ Config.valW = Config.alphaSize ∧ Config.minLen % Config.groupSyms = 0 := by decide

theorem s2v_of_inAlpha {c : Byte} (h : inAlpha c = true) :
    s2v c = some ((c - Config.alphaLo).extractLsb' 0 6) := by simp [s2v, h]

theorem inAlpha_of_s2v {c : Byte} {v : Val} (h : s2v c = some v) : inAlpha c = true := by
  by_contra hc
  simp [s2v, hc] at h

theorem pack4_of_s2v {c0 c1 c2 c3 : Byte} {v0 v1 v2 v3 : Val} (h0 : s2v c0 = some v0)
    (h1 : s2v c1 = some v1) (h2 : s2v c2 = some v2) (h3 : s2v c3 = some v3) :
    pack4 c0 c1 c2 c3 = some (bytesOfGroup (groupOfVals v0 v1 v2 v3)) := by
  simp [pack4, h0, h1, h2, h3]

/-- Concatenation as a number: the form R7 defines `++` by. -/
theorem append_toNat {n m : Nat} (x : BitVec n) (y : BitVec m) :
    (x ++ y).toNat = x.toNat * 2 ^ m + y.toNat := by
  rw [BitVec.toNat_append, ← Nat.shiftLeft_add_eq_or_of_lt y.isLt, Nat.shiftLeft_eq]

/-- `PACK4` is defined exactly on four Symbols. -/
theorem pack4_isSome (c0 c1 c2 c3 : Byte) :
    (pack4 c0 c1 c2 c3).isSome = allSymbols [c0, c1, c2, c3] := by
  cases h0 : inAlpha c0 <;> cases h1 : inAlpha c1 <;> cases h2 : inAlpha c2 <;>
    cases h3 : inAlpha c3 <;> simp [pack4, s2v, allSymbols, h0, h1, h2, h3]

@[simp] theorem bytesOfGroup_length (w : GroupWord) : (bytesOfGroup w).length = 3 := rfl
@[simp] theorem unpack3_length (b0 b1 b2 : Byte) : (unpack3 b0 b1 b2).length = 4 := rfl

/-- The bytes of a group are the three bytes of some group word, whichever way they come about. -/
theorem packGroup_eq_bytes (stamp g : Nat) (c0 c1 c2 c3 : Byte) :
    ∃ w, packGroup stamp g c0 c1 c2 c3 = bytesOfGroup w := by
  unfold packGroup pack4
  split
  · rename_i bs h
    split at h
    · exact ⟨_, (Option.some.inj h).symm⟩
    · cases h
  · exact ⟨_, rfl⟩

@[simp] theorem packGroup_length (stamp g : Nat) (c0 c1 c2 c3 : Byte) :
    (packGroup stamp g c0 c1 c2 c3).length = 3 := by
  obtain ⟨w, h⟩ := packGroup_eq_bytes stamp g c0 c1 c2 c3
  rw [h, bytesOfGroup_length]

/-- A group `PACK4` is defined on is packed by it, whatever the stamp and the group's number. -/
theorem packGroup_of_pack4 {c0 c1 c2 c3 : Byte} {bs : List Byte} (h : pack4 c0 c1 c2 c3 = some bs)
    (stamp g : Nat) : packGroup stamp g c0 c1 c2 c3 = bs := by simp [packGroup, h]

@[simp] theorem packBytes_nil (stamp g : Nat) : packBytes stamp g [] = [] := rfl

@[simp] theorem packBytes_group (stamp g : Nat) (c0 c1 c2 c3 : Byte) (rest : List Byte) :
    packBytes stamp g (c0 :: c1 :: c2 :: c3 :: rest) =
      packGroup stamp g c0 c1 c2 c3 ++ packBytes stamp (g + 1) rest := rfl

@[simp] theorem unpackSyms_nil : unpackSyms [] = [] := rfl

@[simp] theorem unpackSyms_group (b0 b1 b2 : Byte) (rest : List Byte) :
    unpackSyms (b0 :: b1 :: b2 :: rest) = unpack3 b0 b1 b2 ++ unpackSyms rest := rfl

/-- A sequence of `n + 1` groups of four is its first group and a sequence of `n` groups. -/
theorem exists_group4 {data : List Byte} {n : Nat} (h : data.length = 4 * (n + 1)) :
    ∃ c0 c1 c2 c3 rest, data = c0 :: c1 :: c2 :: c3 :: rest ∧ rest.length = 4 * n := by
  match data, h with
  | c0 :: c1 :: c2 :: c3 :: rest, h => exact ⟨c0, c1, c2, c3, rest, rfl, by simp at h; omega⟩
  | [_, _, _], h | [_, _], h | [_], h | [], h => simp at h <;> omega

/-- A sequence of `n + 1` groups of three is its first group and a sequence of `n` groups. -/
theorem exists_group3 {data : List Byte} {n : Nat} (h : data.length = 3 * (n + 1)) :
    ∃ b0 b1 b2 rest, data = b0 :: b1 :: b2 :: rest ∧ rest.length = 3 * n := by
  match data, h with
  | b0 :: b1 :: b2 :: rest, h => exact ⟨b0, b1, b2, rest, rfl, by simp at h; omega⟩
  | [_, _], h | [_], h | [], h => simp at h <;> omega

theorem packBytes_length (stamp : Nat) :
    ∀ (n g : Nat) (data : List Byte), data.length = 4 * n → (packBytes stamp g data).length = 3 * n
  | 0, g, data, h => by simp [List.length_eq_zero_iff.1 h]
  | n + 1, g, data, h => by
    obtain ⟨c0, c1, c2, c3, rest, rfl, hr⟩ := exists_group4 h
    simp [packBytes_length stamp n (g + 1) rest hr]; omega

theorem unpackSyms_length :
    ∀ (n : Nat) (data : List Byte), data.length = 3 * n → (unpackSyms data).length = 4 * n
  | 0, data, h => by simp [List.length_eq_zero_iff.1 h]
  | n + 1, data, h => by
    obtain ⟨b0, b1, b2, rest, rfl, hr⟩ := exists_group3 h
    simp [unpackSyms_length n rest hr]; omega

/-- A scan that finds nothing has seen Symbols only. -/
theorem firstBad_eq_none_iff (data : List Byte) : firstBad data = none ↔ allSymbols data = true := by
  induction data with
  | nil => simp [firstBad, allSymbols]
  | cons c cs ih =>
    cases h : inAlpha c <;> simp_all [firstBad, allSymbols]

end Sys2Proof.Machine
end

