-- ==== Sys2Proof/Laws/State.lean ====
section
/-! SUPPORT. One lemma per field per update of State, so that no proof unfolds a record update. -/

namespace Sys2Proof.Machine

@[simp] theorem deliver_ps (p : Response) (s : State) : (deliver p s).ps = .idle := rfl
@[simp] theorem deliver_port (p : Response) (s : State) : (deliver p s).port = s.port := rfl
@[simp] theorem deliver_rst (p : Response) (s : State) : (deliver p s).rst = s.rst := rfl
@[simp] theorem deliver_delivered (p : Response) (s : State) :
    (deliver p s).delivered = s.delivered ++ [{ caller := callerOf s, response := p }] := rfl
@[simp] theorem deliver_stamp (p : Response) (s : State) : (deliver p s).stamp = s.stamp + 1 := rfl

@[simp] theorem takeReset_ps (s : State) : (takeReset s).ps = .idle := rfl
@[simp] theorem takeReset_port (s : State) : (takeReset s).port = s.port := rfl
@[simp] theorem takeReset_rst (s : State) : (takeReset s).rst = false := rfl
@[simp] theorem takeReset_delivered (s : State) : (takeReset s).delivered = s.delivered := rfl
@[simp] theorem takeReset_stamp (s : State) : (takeReset s).stamp = s.stamp := rfl

@[simp] theorem withAccepted_ps (o : Offer) (s : State) : (withAccepted o s).ps = .busy o := rfl
@[simp] theorem withAccepted_port (o : Offer) (s : State) : (withAccepted o s).port = s.port := rfl
@[simp] theorem withAccepted_rst (o : Offer) (s : State) : (withAccepted o s).rst = false := rfl
@[simp] theorem withAccepted_delivered (o : Offer) (s : State) :
    (withAccepted o s).delivered = s.delivered := rfl
@[simp] theorem withAccepted_stamp (o : Offer) (s : State) : (withAccepted o s).stamp = s.stamp := rfl

@[simp] theorem assertReset_ps (s : State) : (assertReset s).ps = s.ps := rfl
@[simp] theorem assertReset_port (s : State) : (assertReset s).port = s.port := rfl
@[simp] theorem assertReset_rst (s : State) : (assertReset s).rst = true := rfl
@[simp] theorem assertReset_delivered (s : State) : (assertReset s).delivered = s.delivered := rfl
@[simp] theorem assertReset_stamp (s : State) : (assertReset s).stamp = s.stamp := rfl

theorem accept_of_no_request {s : State} (h : s.port = []) : accept s = s := by simp [accept, h]

theorem accept_of_request {s : State} {o : Offer} {rest : List Offer} (h : s.port = o :: rest) :
    accept s = { s with ps := .busy o, port := rest } := by simp [accept, h]

theorem callerOf_idle {s : State} (h : s.ps = .idle) : callerOf s = none := by simp [callerOf, h]

theorem callerOf_busy {s : State} {o : Offer} (h : s.ps = .busy o) : callerOf s = some o.caller := by
  simp [callerOf, h]

@[simp] theorem accept_rst (s : State) : (accept s).rst = s.rst := by
  unfold accept; split <;> rfl

@[simp] theorem accept_delivered (s : State) : (accept s).delivered = s.delivered := by
  unfold accept; split <;> rfl

@[simp] theorem accept_stamp (s : State) : (accept s).stamp = s.stamp := by
  unfold accept; split <;> rfl

end Sys2Proof.Machine
end

