-- ==== Sys2Proof/Laws/Ops.lean ====
section
/-! SUPPORT. What a command can do and what a step can do, each said once. -/

namespace Sys2Proof.Machine

/-- The response to a command in the transaction of the given stamp: the function `exec(op, in)` of R36 as data. -/
def responseTo (stamp : Nat) : Instr → Response
  | .pack data =>
    if data.length % 4 ≠ 0 then errorResponse .symbolCount else okResponse (packBytes stamp 0 data)
  | .unpack data =>
    if data.length % 3 ≠ 0 then errorResponse .byteCount else okResponse (unpackSyms data)
  | .validate data =>
    if lenOk data.length then
      match firstBad data with
      | none => okResponse []
      | some (pos, sym) => errorResponse (.forbiddenSymbol sym pos)
    else errorResponse .length
  | .op3 _ => errorResponse .illegalCommand

/-- A command does one thing: it delivers its response. -/
theorem exec_eq_deliver (i : Instr) (s : State) :
    exec i s = .next (deliver (responseTo s.stamp i) s) := by
  cases i with
  | pack data =>
    by_cases h : data.length % 4 = 0 <;>
      simp [exec, execPack, responseTo, Config.groupSyms, raise, respondOk, h]
  | unpack data =>
    by_cases h : data.length % 3 = 0 <;>
      simp [exec, execUnpack, responseTo, Config.groupBytes, raise, respondOk, h]
  | validate data =>
    cases hl : lenOk data.length <;> cases hf : firstBad data <;>
      simp [exec, execValidate, responseTo, raise, respondOk, hl, hf]
  | op3 data => rfl

/-- The response a command is answered with is the one function value. -/
theorem answersWith_iff {i : Instr} {s : State} {p : Response} :
    AnswersWith i s p ↔ p = responseTo s.stamp i := by
  constructor
  · rintro ⟨t, ht, -, hd, -, -⟩
    rw [exec_eq_deliver] at ht
    cases ht
    simpa using hd.symm
  · rintro rfl
    exact ⟨_, exec_eq_deliver i s, rfl, rfl, rfl, rfl⟩

/-- Everything a step can do: take a reset, answer the transaction in progress, accept a request, or nothing. -/
theorem step_cases (s : State) :
    (s.rst = true ∧ step s = .next (takeReset s)) ∨
    (∃ o, s.rst = false ∧ s.ps = .busy o ∧
      step s = .next (deliver (responseTo s.stamp (decode o.req)) s)) ∨
    (∃ o rest, s.rst = false ∧ s.ps = .idle ∧ s.port = o :: rest ∧
      step s = .next { s with ps := .busy o, port := rest }) ∨
    (s.rst = false ∧ s.ps = .idle ∧ s.port = [] ∧ step s = .next s) := by
  cases hr : s.rst with
  | true => exact .inl ⟨rfl, by simp [step, hr]⟩
  | false =>
    cases hp : s.ps with
    | busy r => exact .inr (.inl ⟨r, rfl, rfl, by simp [step, hr, hp, exec_eq_deliver]⟩)
    | idle =>
      cases hq : s.port with
      | nil => exact .inr (.inr (.inr ⟨rfl, rfl, rfl, by simp [step, hr, hp, accept_of_no_request hq]⟩))
      | cons r rest =>
        exact .inr (.inr (.inl ⟨r, rest, rfl, rfl, rfl, by simp [step, hr, hp, accept_of_request hq]⟩))

/-- The host's offer either queues the request or refuses it for its length. -/
theorem offerFor_cases (maxLen : Option Nat) (c : Caller) (r : Request) (s : State) :
    (r.wfFor maxLen = true ∧
      offerFor maxLen c r s = .next { s with port := s.port ++ [{ caller := c, req := r }] }) ∨
    (r.wfFor maxLen = false ∧ offerFor maxLen c r s = .refused .requestTooLong) := by
  cases h : r.wfFor maxLen <;> simp [offerFor, h]

/-- Taking a host's oldest delivery takes the first that is for it, and leaves those before and after it in place. -/
theorem takeFor_eq_some {host : Nat} {ds rest : List Delivery} {d : Delivery}
    (h : takeFor host ds = some (d, rest)) :
    ∃ before after, ds = before ++ d :: after ∧ rest = before ++ after ∧ isFor host d = true ∧
      ∀ e ∈ before, isFor host e = false := by
  induction ds generalizing rest with
  | nil => simp [takeFor] at h
  | cons e es ih =>
    cases he : isFor host e with
    | true =>
      simp [takeFor, he] at h
      obtain ⟨rfl, rfl⟩ := h
      exact ⟨[], es, rfl, rfl, he, by simp⟩
    | false =>
      simp [takeFor, he] at h
      obtain ⟨_, h, rfl⟩ := h
      obtain ⟨before, after, rfl, rfl, hd, hb⟩ := ih h
      exact ⟨e :: before, after, rfl, rfl, hd, by simpa [he] using hb⟩

/-- A host finds nothing to take exactly when no delivery is for it. -/
theorem takeFor_eq_none_iff (host : Nat) (ds : List Delivery) :
    takeFor host ds = none ↔ ∀ d ∈ ds, isFor host d = false := by
  induction ds with
  | nil => simp [takeFor]
  | cons e es ih => cases he : isFor host e <;> simp [takeFor, he, ih]

end Sys2Proof.Machine
end

