-- ==== Sys2Proof/Laws/PerInstr.lean ====
section
/-! SUPPORT. Statements made instruction by instruction, about an instruction as syntax. -/

namespace Sys2Proof.Laws

/-- The encoder hands the operand over as it stands (30_encoding.md R35). -/
def OperandKept.Statement (i : Instr) : Prop := (encode i).data = i.data

theorem OperandKept.pack (data : List Byte) : OperandKept.Statement (.pack data) := rfl
theorem OperandKept.unpack (data : List Byte) : OperandKept.Statement (.unpack data) := rfl
theorem OperandKept.validate (data : List Byte) : OperandKept.Statement (.validate data) := rfl
theorem OperandKept.op3 (data : List Byte) : OperandKept.Statement (.op3 data) := rfl

end Sys2Proof.Laws
end

