-- ==== Sys2Proof/Tests/Slice0.lean ====
section
/-! SUPPORT. Own tests: expected values are those of spec/95_test_vectors.md, named in each comment; and the witnesses
that the hypotheses of the statements can be met. -/

namespace Sys2Proof.Tests

open Machine

/-- A request of call 7 of host 1. -/
def offerOf (op : OpField) (data : List Byte) : Offer :=
  { caller := { host := 1, call := 7 }, req := { op := op, data := data } }

/-- The reset state with that request accepted. -/
def busyWith (op : OpField) (data : List Byte) : State := withAccepted (offerOf op data) State.reset

/-- The newest response of an outcome's state. -/
def answerOf : Host.Outcome State Fault Refusal → Option Response
  | .next s => s.delivered.getLast?.map Delivery.response
  | .fault _ => none
  | .refused _ => none

/-- The elements of "123456789012". -/
def digits12 : List Byte := [0x31, 0x32, 0x33, 0x34, 0x35, 0x36, 0x37, 0x38, 0x39, 0x30, 0x31, 0x32]

/-- The elements of "1234567890123456". -/
def digits16 : List Byte := digits12 ++ [0x33, 0x34, 0x35, 0x36]

/-- Vector V12: "123456789012345" and then a backtick. -/
def backtickLast : List Byte := digits12 ++ [0x33, 0x34, 0x35, 0x60]

/-- Vector V10: 0x1F and then "234567890123456". -/
def belowFirst : List Byte := 0x1F :: digits16.drop 1

-- Well-formedness: the one check refuses an operand longer than MAX_LEN.

theorem test_wf_refuses_long : Instr.wfFor (some 3) (.pack [0x31, 0x32, 0x33, 0x34]) = false := by decide
theorem test_wf_accepts_bound : Instr.wfFor (some 4) (.pack [0x31, 0x32, 0x33, 0x34]) = true := by decide
theorem test_wf_default_unbounded : Instr.wf (.unpack digits16) = true := by decide
theorem test_request_wf_refuses_long : Request.wfFor (some 0) { op := 3, data := [0x00] } = false := by decide

-- Decoding, one word per command: `op` as two bits and then the elements (30_encoding.md R36; P1, P2, P4).

theorem test_decode_pack : decode { op := 0b00, data := [0x21, 0x22] } = .pack [0x21, 0x22] := by decide
theorem test_decode_unpack : decode { op := 0b01, data := [0x04, 0x28] } = .unpack [0x04, 0x28] := by decide
theorem test_decode_validate : decode { op := 0b10, data := [0x31] } = .validate [0x31] := by decide
theorem test_decode_op3 : decode { op := 0b11, data := [0x57] } = .op3 [0x57] := by decide

/-- 30_encoding.md R39: `PACK "!\"AB"`, and `append("1", [0x60])`. -/
theorem test_assemble :
    assemble .pack (.quoted ['!', '"', 'A', 'B']) = some { op := 0b00, data := [0x21, 0x22, 0x41, 0x42] } ∧
    assemble .validate (.append (.quoted ['1']) (.elems [0x60])) = some { op := 0b10, data := [0x31, 0x60] } ∧
    assemble .validate (.quoted ['a']) = none := by decide

/-- A table word with no room for the `op` field is no instruction. -/
theorem test_table_word_too_short : decodeTableWord 1 0 = none := by decide

-- One step per test.

/-- S1, the source's example. -/
theorem test_pack_source_example :
    answerOf (step (busyWith 0 [0x21, 0x22, 0x41, 0x42])) = some (okResponse [0x04, 0x28, 0x62]) := by decide

/-- K16: no error, six bytes, the first group defined and the second any value. -/
theorem test_pack_outside_alphabet :
    (answerOf (step (busyWith 0 [0x31, 0x32, 0x33, 0x34, 0x61, 0x32, 0x33, 0x34]))).map
      (fun p => (p.status, p.out.length, p.out.take 3)) = some (.ok, 6, [0x45, 0x24, 0xD4]) := by decide

/-- UP8: two groups. -/
theorem test_unpack_two_groups :
    answerOf (step (busyWith 1 [0xDE, 0xAD, 0xBE, 0xEF, 0x01, 0x02])) =
      some (okResponse [0x57, 0x4A, 0x56, 0x5E, 0x5B, 0x50, 0x24, 0x22]) := by decide

/-- UP5: no partial output. -/
theorem test_unpack_length4 :
    answerOf (step (busyWith 1 [0x04, 0x28, 0x62, 0x00])) =
      some { status := .byteCountError, out := [], errSym := none, errPos := none } := by decide

/-- V13: two forbidden elements, the first is reported. -/
theorem test_validate_two_bad :
    answerOf (step (busyWith 2 (([0x31, 0x32, 0x61] ++ digits12.drop 3) ++ [0x33, 0x60, 0x35, 0x36]))) =
      some { status := .forbiddenSymbolError, out := [], errSym := some 0x61, errPos := some 2 } := by decide

/-- V16: a bad length and a forbidden element, the length error wins. -/
theorem test_validate_length_wins :
    answerOf (step (busyWith 2 (digits12 ++ [0x60]))) =
      some { status := .lengthError, out := [], errSym := none, errPos := none } := by decide

/-- I2: the operand is ignored. -/
theorem test_op3 :
    answerOf (step (busyWith 3 digits16)) =
      some { status := .illegalCommand, out := [], errSym := none, errPos := none } := by decide

/-- I6: a reset that falls before the response leaves the request unanswered. -/
theorem test_reset_abandons :
    answerOf (step (assertReset (busyWith 0 [0x31, 0x32, 0x33, 0x34]))) = none := by decide

-- Witnesses: states and operands that meet the hypotheses of each statement, clause by clause.

/-- ResetLeavesIdle, ResetChangesNoResponse, ResetAbandonsTransaction, NothingRetained (reset), ProtocolStateTransitions. -/
theorem witness_reset_while_busy :
    (assertReset (busyWith 0 [0x31])).rst = true ∧
      (assertReset (busyWith 0 [0x31])).ps = .busy (offerOf 0 [0x31]) := by decide

theorem witness_reset_while_idle :
    (assertReset State.reset).rst = true ∧ (assertReset State.reset).ps = .idle := by decide

/-- StepRunsDecodedCommand, ProtocolStateTransitions (delivery), NothingRetained (response), CallerUnknownToBlock. -/
theorem witness_busy : (busyWith 2 digits16).rst = false ∧
    (busyWith 2 digits16).ps = .busy (offerOf 2 digits16) := by decide

/-- StepRunsDecodedCommand, the table word: lowest and highest `op`. -/
theorem witness_table_word :
    decodeTableWord 8 0 = some (.pack []) ∧ decodeTableWord 8 3 = some (.op3 []) ∧
      decodeTableWord 2 1 = some (.unpack []) := by decide

/-- SymbolValue, SymbolMapBijection, PackShiftMaskForm: both bounds, and the neighbours outside. -/
theorem witness_symbol_bounds :
    inAlpha 0x20 = true ∧ inAlpha 0x5F = true ∧ inAlpha 0x1F = false ∧ inAlpha 0x60 = false ∧
      s2v 0x20 = some 0 ∧ s2v 0x5F = some 63 := by decide

/-- PackByteDependsOnTwoLanes: all lanes equal, at the top of each lane ("____"). -/
theorem witness_pack4_top :
    pack4 0x5F 0x5F 0x5F 0x5F = some [0xFF, 0xFF, 0xFF] := by decide

/-- PackByteDependsOnTwoLanes: two groups that share lanes 0 and 1 only, 1 and 2 only, 2 and 3 only. -/
theorem witness_pack4_shared_lanes :
    pack4 0x5F 0x5F 0x20 0x20 = some [0xFF, 0xF0, 0x00] ∧ pack4 0x5F 0x5F 0x5F 0x5F = some [0xFF, 0xFF, 0xFF] ∧
      pack4 0x20 0x5F 0x5F 0x20 = some [0x03, 0xFF, 0xC0] ∧ pack4 0x20 0x20 0x5F 0x5F = some [0x00, 0x0F, 0xFF] := by
  decide

/-- PackAnswers: lengths 3 (error), 0 and 4 (OK), a group of Symbols at index 0. -/
theorem witness_pack_lengths :
    (digits12.take 3).length % 4 ≠ 0 ∧ ([] : List Byte).length % 4 = 0 ∧ (digits12.take 4).length % 4 = 0 ∧
      0 < (digits12.take 4).length / 4 ∧ allSymbols (memRead (digits12.take 4) 0 4) = true := by decide

/-- UnpackAnswers: lengths 2 (error), 0 and 3 (OK). -/
theorem witness_unpack_lengths :
    (digits12.take 2).length % 3 ≠ 0 ∧ ([] : List Byte).length % 3 = 0 ∧ (digits12.take 3).length % 3 = 0 ∧
      0 < (digits12.take 3).length / 3 := by decide

/-- ValidateAnswers, LengthCheck, ErrorPriority: 12 (below 16) and 13 (no multiple of 4) fail, 16 passes. -/
theorem witness_validate_lengths :
    ¬(digits12.length % 4 = 0 ∧ 16 ≤ digits12.length) ∧ lenOk (digits12 ++ [0x60]).length = false ∧
      (digits16.length % 4 = 0 ∧ 16 ≤ digits16.length) ∧ allSymbols digits16 = true := by decide

/-- ValidateAnswers: a forbidden element at the last index, and at the first. -/
theorem witness_validate_forbidden :
    (backtickLast.length % 4 = 0 ∧ 16 ≤ backtickLast.length ∧ backtickLast[15]? = some 0x60 ∧
      inAlpha 0x60 = false ∧ allSymbols (backtickLast.take 15) = true) ∧
    (belowFirst.length % 4 = 0 ∧ 16 ≤ belowFirst.length ∧ belowFirst[0]? = some 0x1F ∧
      inAlpha 0x1F = false ∧ allSymbols (belowFirst.take 0) = true) := by decide

/-- FirstBadIsLeast: a scan that finds nothing, and one that finds the last element. -/
theorem witness_first_bad :
    firstBad digits16 = none ∧ firstBad backtickLast = some (15, 0x60) ∧ firstBad [] = none := by decide

/-- StatusCodesAndCauses, ErrorRecords, HostReadsWhatIsPresent, ResponseDependsOnRequestOnly: each status is answered. -/
theorem witness_ok : AnswersWith (.validate digits16) State.reset (okResponse []) := ⟨_, rfl, rfl, rfl, rfl, rfl⟩

theorem witness_symbol_count : AnswersWith (.pack [0x31]) State.reset (errorResponse .symbolCount) :=
  ⟨_, rfl, rfl, rfl, rfl, rfl⟩

theorem witness_byte_count : AnswersWith (.unpack [0x31]) State.reset (errorResponse .byteCount) :=
  ⟨_, rfl, rfl, rfl, rfl, rfl⟩

theorem witness_length : AnswersWith (.validate digits12) State.reset (errorResponse .length) :=
  ⟨_, rfl, rfl, rfl, rfl, rfl⟩

theorem witness_forbidden :
    AnswersWith (.validate backtickLast) State.reset (errorResponse (.forbiddenSymbol 0x60 15)) :=
  ⟨_, rfl, rfl, rfl, rfl, rfl⟩

theorem witness_illegal : AnswersWith (.op3 digits16) State.reset (errorResponse .illegalCommand) :=
  ⟨_, rfl, rfl, rfl, rfl, rfl⟩

/-- ErrorPriority: two forbidden elements (indexes 0 and 15) in one candidate, answered; and two operands of `.op3`. -/
theorem witness_two_forbidden :
    AnswersWith (.validate (0x1F :: backtickLast.drop 1)) State.reset (errorResponse (.forbiddenSymbol 0x1F 0)) ∧
      (0x1F :: backtickLast.drop 1)[0]? = some 0x1F ∧ (0x1F :: backtickLast.drop 1)[15]? = some 0x60 ∧
      inAlpha 0x1F = false ∧ inAlpha 0x60 = false :=
  ⟨⟨_, rfl, rfl, rfl, rfl, rfl⟩, by decide, by decide, by decide, by decide⟩

/-- ErrorLeavesNothingBehind: an error, and a command answered before it and after it (I3). -/
theorem witness_after_error :
    ∃ t, AnswersWith (.validate digits12) State.reset (errorResponse .length) ∧
      (errorResponse .length).status ≠ .ok ∧ exec (.validate digits12) State.reset = .next t ∧
      AnswersWith (.validate digits16) State.reset (okResponse []) ∧
      AnswersWith (.validate digits16) t (okResponse []) :=
  ⟨deliver (errorResponse .length) State.reset, ⟨_, rfl, rfl, rfl, rfl, rfl⟩, by decide, rfl,
    ⟨_, rfl, rfl, rfl, rfl, rfl⟩, ⟨_, rfl, rfl, rfl, rfl, rfl⟩⟩

/-- ForbiddenSymbolIsFirst, ErrorDelivery: the forbidden element is reported. -/
theorem witness_forbidden_status : (errorResponse (.forbiddenSymbol 0x60 15)).status = .forbiddenSymbolError := by
  decide

/-- ValidateOkEstablishes, ValidateTotal: a candidate answered OK. -/
theorem witness_validate_ok : ∃ p, AnswersWith (.validate digits16) State.reset p ∧ p.status = .ok :=
  ⟨okResponse [], ⟨_, rfl, rfl, rfl, rfl, rfl⟩, rfl⟩

/-- CodecDeterministic, CodecRoundTrip, CodecInjective, CodecConcatenates: K5 and UP4 in two different states. -/
theorem witness_codec :
    allSymbols (digits12.take 4) = true ∧ (digits12.take 4).length % 4 = 0 ∧
      AnswersWith (.pack (digits12.take 4)) State.reset (okResponse [0x45, 0x24, 0xD4]) ∧
      AnswersWith (.pack (digits12.take 4)) (assertReset State.reset) (okResponse [0x45, 0x24, 0xD4]) ∧
      AnswersWith (.unpack [0x04, 0x28, 0x62]) State.reset (okResponse [0x21, 0x22, 0x41, 0x42]) ∧
      AnswersWith (.unpack [0x04, 0x28, 0x62]) (assertReset State.reset) (okResponse [0x21, 0x22, 0x41, 0x42]) :=
  ⟨by decide, by decide, ⟨_, rfl, rfl, rfl, rfl, rfl⟩, ⟨_, rfl, rfl, rfl, rfl, rfl⟩, ⟨_, rfl, rfl, rfl, rfl, rfl⟩,
    ⟨_, rfl, rfl, rfl, rfl, rfl⟩⟩

/-- CodecConcatenates: a second operand of each command (the concatenation check of section 2.3: K5 and "5678"; two
packed groups of UP8). -/
theorem witness_concat :
    AnswersWith (.pack [0x35, 0x36, 0x37, 0x38]) State.reset (okResponse [0x55, 0x65, 0xD8]) ∧
      allSymbols [0x35, 0x36, 0x37, 0x38] = true ∧
      AnswersWith (.unpack [0xDE, 0xAD, 0xBE]) State.reset (okResponse [0x57, 0x4A, 0x56, 0x5E]) :=
  ⟨⟨_, rfl, rfl, rfl, rfl, rfl⟩, by decide, ⟨_, rfl, rfl, rfl, rfl, rfl⟩⟩

/-- UnpackYieldsSymbols: 12 bytes (OK) and 9 bytes (LengthError), each with its VALIDATE. -/
theorem witness_unpack_validate :
    (∃ p q, digits12.length % 3 = 0 ∧ 12 ≤ digits12.length ∧ AnswersWith (.unpack digits12) State.reset p ∧
      AnswersWith (.validate p.out) State.reset q ∧ q.status = .ok) ∧
    ∃ p q, (digits12.take 9).length % 3 = 0 ∧ (digits12.take 9).length < 12 ∧
      AnswersWith (.unpack (digits12.take 9)) State.reset p ∧ AnswersWith (.validate p.out) State.reset q ∧
      q.status = .lengthError :=
  ⟨⟨okResponse (unpackSyms digits12), okResponse [], by decide, by decide, ⟨_, rfl, rfl, rfl, rfl, rfl⟩,
      ⟨_, rfl, rfl, rfl, rfl, rfl⟩, rfl⟩,
    ⟨okResponse (unpackSyms (digits12.take 9)), errorResponse .length, by decide, by decide,
      ⟨_, rfl, rfl, rfl, rfl, rfl⟩, ⟨_, rfl, rfl, rfl, rfl, rfl⟩, rfl⟩⟩

/-- LockstepRefinesCommands: one group done of three (K9's first group is "HELL", here "1234"). -/
theorem witness_lockstep :
    4 * 1 ≤ digits12.length ∧ (packTurn 0 digits12 progressStart).out = [0x45, 0x24, 0xD4] ∧
      3 * 1 ≤ digits12.length ∧ digits12.length % 4 = 0 ∧ digits12.length % 3 = 0 := by decide

/-- LoopTurnsKeepInvariant: a progress with a group left and one with none, and a scan in the middle, at the end, and
stopped. -/
theorem witness_loop_invariant :
    (4 * 1 ≤ (digits12.take 8).length ∧ 4 * 1 + 4 ≤ (digits12.take 8).length ∧
      [0x45, 0x24, 0xD4] = packBytes 0 0 (memRead (digits12.take 8) 0 (4 * 1))) ∧
    (4 * 1 ≤ (digits12.take 7).length ∧ (digits12.take 7).length < 4 * 1 + 4) ∧
    (3 * 1 ≤ [0x04, 0x28, 0x62].length ∧ [0x04, 0x28, 0x62].length < 3 * 1 + 3 ∧
      [0x21, 0x22, 0x41, 0x42] = unpackSyms (memRead [0x04, 0x28, 0x62] 0 (3 * 1))) ∧
    3 * 0 + 3 ≤ [0x04, 0x28, 0x62].length := by decide

theorem witness_scan_invariant :
    scanInv backtickLast { index := 15, found := none } ∧
      scanInv backtickLast { index := 15, found := some (15, 0x60) } ∧
      scanInv digits16 { index := 16, found := none } :=
  ⟨⟨by decide, by decide⟩, ⟨by decide, by decide⟩, by decide, by decide⟩

/-- CommandFrame, EveryStepProgresses. -/
theorem witness_exec_next : ∃ t, exec (.op3 []) State.reset = .next t := ⟨_, rfl⟩

/-- ProtocolStateTransitions and NonCommandStepFrames (acceptance and idling), ServesRequestsInOrder, OneTransactionAtATime (first clause). -/
theorem witness_accept :
    ∃ t, offer { host := 1, call := 7 } { op := 2, data := digits16 } State.reset = .next t ∧ t.ps = .idle ∧
      t.rst = false ∧ t.port = [offerOf 2 digits16] ∧
      ∃ u, step t = .next u ∧ u.ps = .busy (offerOf 2 digits16) :=
  ⟨_, rfl, rfl, rfl, rfl, _, rfl, rfl⟩

theorem witness_nothing_to_do :
    State.reset.ps = .idle ∧ State.reset.rst = false ∧ State.reset.port = [] ∧ pendingWork State.reset = 0 := by
  decide

/-- OneTransactionAtATime (second clause): Busy with nothing waiting. -/
theorem witness_busy_nothing_waiting :
    (busyWith 2 digits16).rst = false ∧ (busyWith 2 digits16).ps = .busy (offerOf 2 digits16) ∧
      (busyWith 2 digits16).port = [] := by decide

/-- EveryStepProgresses (second clause): a Busy block has work. -/
theorem witness_work : 0 < pendingWork (busyWith 0 []) := by decide

/-- StepKeepsInvariant, HostActionsKeepInvariant, OfferWithinMaxLen: `MAX_LEN = 16` with a Busy block, a request of
exactly that length, one longer, and a response to take. -/
theorem witness_invariant :
    inv (some 16) (busyWith 2 digits16) = true ∧
      inv none (deliver (errorResponse (.forbiddenSymbol 0x60 15)) (busyWith 2 backtickLast)) = true ∧
      digits16.length ≤ 16 ∧ 16 < (digits16 ++ [0x31]).length ∧ inv (some 15) (busyWith 2 digits16) = false := by
  decide

theorem witness_step_next : ∃ t, step (busyWith 2 digits16) = .next t := ⟨_, rfl⟩

/-- HostTakesOnlyItsOwn, FramesCarryRequests: the response to call 7 of host 1 is host 1's; host 0, the boundary, and
host 2 take nothing. -/
theorem witness_take :
    (takeResponse 1 (deliver (okResponse []) (busyWith 2 digits16))).map (fun p => p.1.caller) =
        some (some { host := 1, call := 7 }) ∧
      takeResponse 0 (deliver (okResponse []) (busyWith 2 digits16)) = none ∧
      takeResponse 2 (deliver (okResponse []) (busyWith 2 digits16)) = none := by decide

/-- HostTakesOnlyItsOwn: another caller's older delivery stays where it is. -/
theorem witness_take_past_other :
    takeFor 1 [{ caller := some { host := 2, call := 0 }, response := okResponse [] },
        { caller := some { host := 1, call := 7 }, response := errorResponse .length }] =
      some ({ caller := some { host := 1, call := 7 }, response := errorResponse .length },
        [{ caller := some { host := 2, call := 0 }, response := okResponse [] }]) := by decide

/-- ResponseGoesToItsCaller: a step that delivers, and a step that takes a reset and delivers nothing. -/
theorem witness_delivery :
    (∃ t, step (busyWith 3 []) = .next t ∧
      t.delivered = [{ caller := some { host := 1, call := 7 }, response := errorResponse .illegalCommand }]) ∧
    ∃ t, step (assertReset (busyWith 3 [])) = .next t ∧ t.delivered = [] := ⟨⟨_, rfl, rfl⟩, _, rfl, rfl⟩

/-- HostReadsWhatIsPresent: both readings. -/
theorem witness_read :
    readError (errorResponse (.forbiddenSymbol 0x60 15)) = some (0x60, 15) ∧ readOut (okResponse []) = some [] := by
  decide

/-- InstancesIndependent: two instances, 0 and 1, and a step of the second. -/
theorem witness_instances :
    0 ≠ 1 ∧ 0 < [State.reset, busyWith 3 []].length ∧ 1 < [State.reset, busyWith 3 []].length ∧
      ∃ sys, stepInstance 1 [State.reset, busyWith 3 []] = .next sys := ⟨by decide, by decide, by decide, _, rfl⟩

/-- HostActionsKeepInvariant: under any wire format a framed offer can succeed. -/
theorem witness_frame (wire : WireFormat (some 16)) : ∃ t,
    offerFrame wire { host := 1, call := 7 }
      (wire.writeRequest { op := 2, data := digits16 }) State.reset = .next t :=
  ⟨_, by rw [offerFrame, wire.request_back _ (by decide)]; rfl⟩

/-- The code of an element list as a number, for the witness below. -/
def dataCode (data : List Byte) : List Nat := data.map BitVec.toNat

theorem dataCode_injective : Function.Injective dataCode :=
  List.map_injective_iff.2 fun _ _ h => BitVec.eq_of_toNat_eq h

/-- A request as numbers. -/
def requestCode (r : Request) : Nat := Encodable.encode (r.op.toNat, dataCode r.data)

theorem requestCode_injective : Function.Injective requestCode := by
  rintro ⟨op, data⟩ ⟨op', data'⟩ h
  have h := Encodable.encode_injective h
  simp only [Prod.mk.injEq] at h
  rw [BitVec.eq_of_toNat_eq h.1, dataCode_injective h.2]

/-- A status as a number. -/
def statusNumber (x : Status) : Nat := (statusCode x).toNat

/-- A response as numbers. -/
def responseCode (p : Response) : Nat :=
  Encodable.encode (statusNumber p.status, dataCode p.out, p.errSym.map BitVec.toNat, p.errPos)

theorem responseCode_injective : Function.Injective responseCode := by
  rintro ⟨st, out, sym, pos⟩ ⟨st', out', sym', pos'⟩ h
  have h := Encodable.encode_injective h
  simp only [Prod.mk.injEq] at h
  obtain ⟨h1, h2, h3, h4⟩ := h
  have e1 : st = st' := by cases st <;> cases st' <;> first | rfl | exact absurd h1 (by decide)
  have e3 : sym = sym' := Option.map_injective (fun _ _ h => BitVec.eq_of_toNat_eq h) h3
  rw [e1, dataCode_injective h2, e3, h4]

/-- FramesCarryRequests, LinkInvariantKept: a response that a command of `MAX_LEN = 16` is answered with, delivered to a
state that has the invariant; and a request of exactly that length. -/
theorem witness_link :
    Answerable (some 16) (okResponse []) ∧ linkInv (some 16) (deliver (okResponse []) (busyWith 2 digits16)) ∧
      Request.wfFor (some 16) { op := 2, data := digits16 } = true :=
  have answered : Answerable (some 16) (okResponse []) :=
    ⟨.validate digits16, busyWith 2 digits16, _, _, by decide, rfl, rfl, rfl⟩
  ⟨answered, ⟨by decide, fun d hd => by
    obtain rfl : d = { caller := some { host := 1, call := 7 }, response := okResponse [] } := by
      simpa [deliver, busyWith, withAccepted, offerOf, callerOf, State.reset] using hd
    exact answered⟩, by decide⟩

/-- FramesCarryRequests: there is a wire format, and a frame that reads as no request. -/
theorem witness_wire_format (maxLen : Option Nat) :
    ∃ wire : WireFormat maxLen, wire.readRequest [false] = none := by
  have unary : Function.Injective fun n : Nat => List.replicate n true := fun a b h => by
    simpa using congrArg List.length h
  have hr := unary.comp requestCode_injective
  have hp := unary.comp responseCode_injective
  refine ⟨{ writeRequest := _, readRequest := Function.partialInv _,
            writeResponse := _, readResponse := Function.partialInv _,
            request_back := fun r _ => Function.partialInv_left hr r,
            response_back := fun p _ => Function.partialInv_left hp p }, ?_⟩
  apply Option.eq_none_iff_forall_ne_some.2
  intro r h
  have h := (hr.isPartialInv r [false]).1 h
  simp only [Function.comp] at h
  have : false ∈ List.replicate (requestCode r) true := by rw [h]; simp
  simp at this

end Sys2Proof.Tests
end

section

/-! The step taken with reset asserted (70_reset_and_hazards.md R81, R82), and what 10_state.md R19 says of it. -/

namespace Sys2Proof.Machine

/-- An asserted reset comes before everything else: the step takes it, whatever the block was doing. -/
theorem step_of_reset_asserted {s : State} (asserted : s.rst = true) : step s = .next (takeReset s) :=
  if_pos asserted

/-- Settles O1: `State.reset` is Idle by definition, and the step from a state with reset asserted is `takeReset`, which
sets `ps` to Idle and keeps the list of deliveries. -/
theorem resetLeavesIdle : Obligations.ResetLeavesIdle :=
  ⟨rfl, fun s asserted =>
    ⟨takeReset s, step_of_reset_asserted asserted, takeReset_ps s, takeReset_delivered s⟩⟩

end Sys2Proof.Machine
end

section

/-! The group word of format GROUP24 (30_encoding.md R33): its number, its fields, and the bits its values and its bytes
share. -/

namespace Sys2Proof.Machine

/-- A bit range of a bit range is a bit range of the whole, counted from the inner range's lowest bit. -/
theorem extractLsb'_extractLsb' {w : Nat} (x : BitVec w) {start len i n : Nat} (within : i + n ≤ len) :
    (x.extractLsb' start len).extractLsb' i n = x.extractLsb' (start + i) n := by
  ext j hj
  have hi : i + j < len := by omega
  simp [hi, Nat.add_assoc]

/-- A bit range is fixed by its number: the quotient by the power of its lowest bit, modulo the power of its width. -/
theorem extractLsb'_eq_of_toNat {w n : Nat} {x : BitVec w} {v : BitVec n} {start : Nat}
    (number : x.toNat / 2 ^ start % 2 ^ n = v.toNat) : x.extractLsb' start n = v := by
  apply BitVec.eq_of_toNat_eq
  rw [BitVec.extractLsb'_toNat, Nat.shiftRight_eq_div_pow, number]

theorem groupOfVals_toNat (v0 v1 v2 v3 : Val) :
    (groupOfVals v0 v1 v2 v3).toNat =
      v0.toNat * 2 ^ 18 + v1.toNat * 2 ^ 12 + v2.toNat * 2 ^ 6 + v3.toNat := by
  unfold groupOfVals
  rw [append_toNat, append_toNat, append_toNat]
  ring

theorem groupOfBytes_toNat (b0 b1 b2 : Byte) :
    (groupOfBytes b0 b1 b2).toNat = b0.toNat * 2 ^ 16 + b1.toNat * 2 ^ 8 + b2.toNat := by
  unfold groupOfBytes
  rw [append_toNat, append_toNat]
  ring

@[simp] theorem valsOfGroup_groupOfVals (v0 v1 v2 v3 : Val) :
    valsOfGroup (groupOfVals v0 v1 v2 v3) = [v0, v1, v2, v3] := by
  have number := groupOfVals_toNat v0 v1 v2 v3
  simp only [valsOfGroup, List.cons.injEq, and_true]
  refine ⟨?_, ?_, ?_, ?_⟩ <;> apply extractLsb'_eq_of_toNat <;> omega

@[simp] theorem bytesOfGroup_groupOfBytes (b0 b1 b2 : Byte) :
    bytesOfGroup (groupOfBytes b0 b1 b2) = [b0, b1, b2] := by
  have number := groupOfBytes_toNat b0 b1 b2
  simp only [bytesOfGroup, List.cons.injEq, and_true]
  refine ⟨?_, ?_, ?_⟩ <;> apply extractLsb'_eq_of_toNat <;> omega

theorem groupOfVals_valFields (w : GroupWord) :
    groupOfVals (w.extractLsb' 18 6) (w.extractLsb' 12 6) (w.extractLsb' 6 6) (w.extractLsb' 0 6) = w := by
  apply BitVec.eq_of_toNat_eq
  simp only [groupOfVals_toNat, BitVec.extractLsb'_toNat, Nat.shiftRight_eq_div_pow]
  omega

theorem groupOfBytes_byteFields (w : GroupWord) :
    groupOfBytes (w.extractLsb' 16 8) (w.extractLsb' 8 8) (w.extractLsb' 0 8) = w := by
  apply BitVec.eq_of_toNat_eq
  simp only [groupOfBytes_toNat, BitVec.extractLsb'_toNat, Nat.shiftRight_eq_div_pow]
  omega

/-- Settles O10: a word's values and bytes are its own bit ranges, and every row of the table names one bit range of the
word twice, once inside a value and once inside a byte. -/
theorem groupWordLayout : Obligations.GroupWordLayout := by
  refine ⟨fun v0 v1 v2 v3 => ⟨groupOfVals_toNat v0 v1 v2 v3, valsOfGroup_groupOfVals v0 v1 v2 v3⟩,
    fun b0 b1 b2 => ⟨groupOfBytes_toNat b0 b1 b2, bytesOfGroup_groupOfBytes b0 b1 b2⟩, fun w => ?_⟩
  refine ⟨w.extractLsb' 18 6, w.extractLsb' 12 6, w.extractLsb' 6 6, w.extractLsb' 0 6,
    w.extractLsb' 16 8, w.extractLsb' 8 8, w.extractLsb' 0 8,
    rfl, groupOfVals_valFields w, rfl, groupOfBytes_byteFields w, ?_⟩
  simp [extractLsb'_extractLsb']

end Sys2Proof.Machine
end

section

/-! The command map and the reserved command code (30_encoding.md R36, R37). -/

namespace Sys2Proof.Machine

@[simp] theorem decode_pack (data : List Byte) : decode { op := 0b00, data := data } = .pack data := rfl
@[simp] theorem decode_unpack (data : List Byte) : decode { op := 0b01, data := data } = .unpack data := rfl
@[simp] theorem decode_validate (data : List Byte) : decode { op := 0b10, data := data } = .validate data := rfl
@[simp] theorem decode_op3 (data : List Byte) : decode { op := 0b11, data := data } = .op3 data := rfl

@[simp] theorem exec_pack (data : List Byte) (s : State) : exec (.pack data) s = execPack data s := rfl
@[simp] theorem exec_unpack (data : List Byte) (s : State) : exec (.unpack data) s = execUnpack data s := rfl
@[simp] theorem exec_validate (data : List Byte) (s : State) : exec (.validate data) s = execValidate data s := rfl

/-- The operand is not examined, not even its length (R37). -/
theorem op3_answersWith_illegalCommand (data : List Byte) (s : State) :
    AnswersWith (.op3 data) s { status := .illegalCommand, out := [], errSym := none, errPos := none } :=
  answersWith_iff.2 rfl

/-- Settles O2: the decoder's row and `exec`'s arm for each of the four codes. -/
theorem commandMap : Obligations.CommandMap := fun data s =>
  ⟨⟨decode_pack data, exec_pack data s⟩, ⟨decode_unpack data, exec_unpack data s⟩,
    ⟨decode_validate data, exec_validate data s⟩, ⟨decode_op3 data, op3_answersWith_illegalCommand data s⟩⟩

/-- Settles O17: the reserved code reaches the arm that raises IllegalCommand, whatever the operand and the state. -/
theorem reservedCommandAnswers : Obligations.ReservedCommandAnswers := fun data s =>
  ⟨decode_op3 data, rfl, op3_answersWith_illegalCommand data s⟩

end Sys2Proof.Machine
end

section

/-! The alphabet test and the symbol map as numbers (40_symbol_map.md R40, R43, R44). -/

namespace Sys2Proof.Machine

theorem inAlpha_iff {c : Byte} : inAlpha c = true ↔ 32 ≤ c.toNat ∧ c.toNat ≤ 95 := by
  simp [inAlpha, BitVec.le_def]

theorem inAlpha_ofNat_iff {n : Nat} (lt : n < 256) :
    inAlpha (BitVec.ofNat 8 n) = true ↔ 32 ≤ n ∧ n ≤ 95 := by
  rw [inAlpha_iff, BitVec.toNat_ofNat, Nat.mod_eq_of_lt lt]

/-- The code points that pass, listed: two increasing lists with the same members are equal. -/
theorem filter_inAlpha_eq_range' :
    ((List.range 256).filter fun n => inAlpha (BitVec.ofNat 8 n)) = List.range' 32 64 := by
  refine (List.pairwise_lt_range.filter _).eq_of_mem_iff List.pairwise_lt_range' fun n => ?_
  rw [List.mem_filter, List.mem_range, List.mem_range'_1, and_congr_right inAlpha_ofNat_iff]
  omega

/-- Settles O6: the two unsigned comparisons read as numbers; the elements that pass are the 64 from 32 on. -/
theorem alphabetTest : Obligations.AlphabetTest :=
  ⟨fun _ => inAlpha_iff, by decide, by decide, by decide, by decide, by decide, by decide, by decide, by decide,
    by decide, by rw [filter_inAlpha_eq_range', List.length_range']⟩

/-- The difference of R40 does not borrow, and its low six bits are the whole of it. -/
theorem symbolValue_toNat {c : Byte} (symbol : inAlpha c = true) :
    ((c - Config.alphaLo).extractLsb' 0 6).toNat = c.toNat - 32 := by
  obtain ⟨low, high⟩ := inAlpha_iff.1 symbol
  have noBorrow : (c - Config.alphaLo).toNat = c.toNat - 32 := BitVec.toNat_sub_of_le low
  rw [BitVec.extractLsb'_toNat, noBorrow, Nat.shiftRight_zero, Nat.mod_eq_of_lt (by omega)]

theorem s2v_of_not_inAlpha {c : Byte} (outside : inAlpha c = false) : s2v c = none := by
  simp [s2v, outside]

/-- Settles O7: inside the alphabet the value is the difference, which neither borrows nor loses a bit; outside it the
test of `s2v` fails. -/
theorem symbolValue : Obligations.SymbolValue :=
  ⟨fun _ symbol => ⟨_, s2v_of_inAlpha symbol, symbolValue_toNat symbol, (inAlpha_iff.1 symbol).1⟩,
    fun _ outside => s2v_of_not_inAlpha outside, by decide, by decide, by decide⟩

end Sys2Proof.Machine
end

section

/-! The symbol map backwards (40_symbol_map.md R41, R42), and the two group primitives as inverses of each other
(41_codec.md R50, R51, R55 (c)). -/

namespace Sys2Proof.Machine

/-- The sum of R41 does not wrap. -/
theorem v2s_toNat (v : Val) : (v2s v).toNat = v.toNat + 32 := by
  have small : v.toNat < 64 := v.isLt
  have low : Config.alphaLo.toNat = 32 := rfl
  rw [v2s, BitVec.toNat_add, BitVec.toNat_setWidth, low]
  omega

@[simp] theorem inAlpha_v2s (v : Val) : inAlpha (v2s v) = true := by
  have small : v.toNat < 64 := v.isLt
  rw [inAlpha_iff, v2s_toNat]
  omega

@[simp] theorem s2v_v2s (v : Val) : s2v (v2s v) = some v := by
  rw [s2v_of_inAlpha (inAlpha_v2s v)]
  refine congrArg some (BitVec.eq_of_toNat_eq ?_)
  rw [symbolValue_toNat (inAlpha_v2s v), v2s_toNat, Nat.add_sub_cancel]

theorem v2s_of_s2v {c : Byte} {v : Val} (value : s2v c = some v) : v2s v = c := by
  have symbol := inAlpha_of_s2v value
  obtain rfl := Option.some.inj ((s2v_of_inAlpha symbol).symm.trans value)
  apply BitVec.eq_of_toNat_eq
  rw [v2s_toNat, symbolValue_toNat symbol, Nat.sub_add_cancel (inAlpha_iff.1 symbol).1]

theorem exists_v2s_of_inAlpha {c : Byte} (symbol : inAlpha c = true) : ∃ v, v2s v = c :=
  ⟨_, v2s_of_s2v (s2v_of_inAlpha symbol)⟩

theorem pack4_v2s (v0 v1 v2 v3 : Val) :
    pack4 (v2s v0) (v2s v1) (v2s v2) (v2s v3) = some (bytesOfGroup (groupOfVals v0 v1 v2 v3)) :=
  pack4_of_s2v (s2v_v2s v0) (s2v_v2s v1) (s2v_v2s v2) (s2v_v2s v3)

@[simp] theorem allSymbols_append (x y : List Byte) :
    allSymbols (x ++ y) = (allSymbols x && allSymbols y) := List.all_append

theorem allSymbols_group_iff {c0 c1 c2 c3 : Byte} {rest : List Byte} :
    allSymbols (c0 :: c1 :: c2 :: c3 :: rest) = true ↔
      allSymbols [c0, c1, c2, c3] = true ∧ allSymbols rest = true := by
  rw [← Bool.and_eq_true, ← allSymbols_append]
  rfl

@[simp] theorem allSymbols_unpack3 (b0 b1 b2 : Byte) : allSymbols (unpack3 b0 b1 b2) = true := by
  simp [allSymbols, unpack3]

/-- `PACK4` cuts the word of the four values into bytes; `UNPACK3` builds the same word from them and cuts it back into
the values. -/
theorem exists_pack4_unpack3 {c0 c1 c2 c3 : Byte} (symbols : allSymbols [c0, c1, c2, c3] = true) :
    ∃ b0 b1 b2, pack4 c0 c1 c2 c3 = some [b0, b1, b2] ∧ unpack3 b0 b1 b2 = [c0, c1, c2, c3] := by
  simp only [allSymbols, List.all_cons, List.all_nil, Bool.and_true, Bool.and_eq_true] at symbols
  obtain ⟨symbol0, symbol1, symbol2, symbol3⟩ := symbols
  obtain ⟨v0, rfl⟩ := exists_v2s_of_inAlpha symbol0
  obtain ⟨v1, rfl⟩ := exists_v2s_of_inAlpha symbol1
  obtain ⟨v2, rfl⟩ := exists_v2s_of_inAlpha symbol2
  obtain ⟨v3, rfl⟩ := exists_v2s_of_inAlpha symbol3
  refine ⟨_, _, _, pack4_v2s v0 v1 v2 v3, ?_⟩
  rw [unpack3, groupOfBytes_byteFields, valsOfGroup_groupOfVals]
  rfl

/-- `UNPACK3` cuts the word of the three bytes into values; `PACK4` builds the same word from them and cuts it back into
the bytes. -/
theorem exists_unpack3_pack4 (b0 b1 b2 : Byte) :
    ∃ c0 c1 c2 c3, unpack3 b0 b1 b2 = [c0, c1, c2, c3] ∧ pack4 c0 c1 c2 c3 = some [b0, b1, b2] := by
  refine ⟨_, _, _, _, rfl, ?_⟩
  rw [pack4_v2s, groupOfVals_valFields, bytesOfGroup_groupOfBytes]

end Sys2Proof.Machine
end

section

/-! The two loops of the codec over whole groups (41_codec.md R52, R53): inverse to each other, independent of the
transaction's stamp on Symbols, and what each leaves at a group's place. -/

namespace Sys2Proof.Machine

/-- Induction on a sequence of whole groups of four. -/
theorem groups4_induction {motive : (data : List Byte) → data.length % 4 = 0 → Prop}
    (nil : motive [] rfl)
    (group : ∀ c0 c1 c2 c3 rest (whole : rest.length % 4 = 0), motive rest whole →
      motive (c0 :: c1 :: c2 :: c3 :: rest) (by simpa [Nat.add_assoc] using whole)) :
    ∀ data (whole : data.length % 4 = 0), motive data whole
  | [], _ => nil
  | c0 :: c1 :: c2 :: c3 :: rest, whole =>
    have restWhole : rest.length % 4 = 0 := by simpa [Nat.add_assoc] using whole
    group c0 c1 c2 c3 rest restWhole (groups4_induction nil group rest restWhole)
  | [_], whole | [_, _], whole | [_, _, _], whole => absurd whole (by simp)

/-- Induction on a sequence of whole groups of three. -/
theorem groups3_induction {motive : (data : List Byte) → data.length % 3 = 0 → Prop}
    (nil : motive [] rfl)
    (group : ∀ b0 b1 b2 rest (whole : rest.length % 3 = 0), motive rest whole →
      motive (b0 :: b1 :: b2 :: rest) (by simpa [Nat.add_assoc] using whole)) :
    ∀ data (whole : data.length % 3 = 0), motive data whole
  | [], _ => nil
  | b0 :: b1 :: b2 :: rest, whole =>
    have restWhole : rest.length % 3 = 0 := by simpa [Nat.add_assoc] using whole
    group b0 b1 b2 rest restWhole (groups3_induction nil group rest restWhole)
  | [_], whole | [_, _], whole => absurd whole (by simp)

theorem packBytes_length_of_whole {data : List Byte} (whole : data.length % 4 = 0) (stamp g : Nat) :
    (packBytes stamp g data).length = 3 * (data.length / 4) :=
  packBytes_length stamp (data.length / 4) g data (by omega)

theorem unpackSyms_length_of_whole {data : List Byte} (whole : data.length % 3 = 0) :
    (unpackSyms data).length = 4 * (data.length / 3) :=
  unpackSyms_length (data.length / 3) data (by omega)

theorem allSymbols_unpackSyms {data : List Byte} (whole : data.length % 3 = 0) :
    allSymbols (unpackSyms data) = true := by
  induction data, whole using groups3_induction with
  | nil => rfl
  | group b0 b1 b2 rest _ ih => simp [ih]

theorem unpackSyms_packBytes {data : List Byte} (whole : data.length % 4 = 0)
    (symbols : allSymbols data = true) (stamp g : Nat) :
    unpackSyms (packBytes stamp g data) = data := by
  induction data, whole using groups4_induction generalizing g with
  | nil => rfl
  | group c0 c1 c2 c3 rest _ ih =>
    obtain ⟨groupSymbols, restSymbols⟩ := allSymbols_group_iff.1 symbols
    obtain ⟨b0, b1, b2, packed, unpacked⟩ := exists_pack4_unpack3 groupSymbols
    simp [packGroup_of_pack4 packed, unpacked, ih restSymbols]

theorem packBytes_unpackSyms {data : List Byte} (whole : data.length % 3 = 0) (stamp g : Nat) :
    packBytes stamp g (unpackSyms data) = data := by
  induction data, whole using groups3_induction generalizing g with
  | nil => rfl
  | group b0 b1 b2 rest _ ih =>
    obtain ⟨c0, c1, c2, c3, unpacked, packed⟩ := exists_unpack3_pack4 b0 b1 b2
    simp [unpacked, packGroup_of_pack4 packed, ih]

/-- No group of Symbols draws a free value, so neither the stamp nor the number of the first group matters. -/
theorem packBytes_eq_of_symbols {data : List Byte} (whole : data.length % 4 = 0)
    (symbols : allSymbols data = true) (stamp g stamp' g' : Nat) :
    packBytes stamp g data = packBytes stamp' g' data := by
  have unpacked := unpackSyms_packBytes whole symbols stamp g
  calc packBytes stamp g data
      = packBytes stamp' g' (unpackSyms (packBytes stamp g data)) :=
        (packBytes_unpackSyms (by simp [packBytes_length_of_whole whole]) stamp' g').symm
    _ = packBytes stamp' g' data := by rw [unpacked]

theorem memRead_append_zero (x y : List Byte) : memRead (x ++ y) 0 x.length = x := by
  simp [memRead]

/-- Past a first group of `size` elements, the places of the groups are those of the rest, one further on. -/
theorem memRead_append_of_length {x : List Byte} {size : Nat} (sized : x.length = size) (y : List Byte)
    (g n : Nat) : memRead (x ++ y) (size * (g + 1)) n = memRead y (size * g) n := by
  rw [memRead, memRead, Nat.mul_succ, Nat.add_comm, ← sized, List.drop_length_add_append]

/-- Group `g` of the operand is packed to place `g` of the output, by the number that the loop has reached there. -/
theorem memRead_packBytes {data : List Byte} (whole : data.length % 4 = 0) (stamp first : Nat) {g : Nat}
    (within : g < data.length / 4) :
    ∃ c0 c1 c2 c3, memRead data (4 * g) 4 = [c0, c1, c2, c3] ∧
      memRead (packBytes stamp first data) (3 * g) 3 = packGroup stamp (first + g) c0 c1 c2 c3 := by
  induction data, whole using groups4_induction generalizing g first with
  | nil => simp at within
  | group c0 c1 c2 c3 rest _ ih =>
    cases g with
    | zero =>
      refine ⟨c0, c1, c2, c3, rfl, ?_⟩
      simpa using memRead_append_zero (packGroup stamp first c0 c1 c2 c3) (packBytes stamp (first + 1) rest)
    | succ g =>
      obtain ⟨d0, d1, d2, d3, read, packed⟩ := ih (first + 1) (g := g) (by simp at within; omega)
      refine ⟨d0, d1, d2, d3,
        (memRead_append_of_length (x := [c0, c1, c2, c3]) rfl rest g 4).trans read, ?_⟩
      rw [packBytes_group, memRead_append_of_length (packGroup_length stamp first c0 c1 c2 c3), packed,
        Nat.add_right_comm, Nat.add_assoc]

/-- Group `g` of the operand is unpacked to place `g` of the output. -/
theorem memRead_unpackSyms {data : List Byte} (whole : data.length % 3 = 0) {g : Nat}
    (within : g < data.length / 3) :
    ∃ b0 b1 b2, memRead data (3 * g) 3 = [b0, b1, b2] ∧
      memRead (unpackSyms data) (4 * g) 4 = unpack3 b0 b1 b2 := by
  induction data, whole using groups3_induction generalizing g with
  | nil => simp at within
  | group b0 b1 b2 rest _ ih =>
    cases g with
    | zero => exact ⟨b0, b1, b2, rfl, memRead_append_zero (unpack3 b0 b1 b2) (unpackSyms rest)⟩
    | succ g =>
      obtain ⟨d0, d1, d2, read, unpacked⟩ := ih (g := g) (by simp at within; omega)
      exact ⟨d0, d1, d2,
        (memRead_append_of_length (x := [b0, b1, b2]) rfl rest g 3).trans read,
        (memRead_append_of_length (unpack3_length b0 b1 b2) (unpackSyms rest) g 4).trans unpacked⟩

end Sys2Proof.Machine
end

section

/-! The two commands of the codec (41_codec.md R52 to R55, R59): where each completes, with what response. -/

namespace Sys2Proof.Machine

theorem pack_answersWith_error {data : List Byte} (partialGroup : data.length % 4 ≠ 0) (s : State) :
    AnswersWith (.pack data) s (errorResponse .symbolCount) :=
  answersWith_iff.2 (by rw [responseTo, if_pos partialGroup])

theorem pack_answersWith_ok {data : List Byte} (whole : data.length % 4 = 0) (s : State) :
    AnswersWith (.pack data) s (okResponse (packBytes s.stamp 0 data)) :=
  answersWith_iff.2 (by rw [responseTo, if_neg (not_not_intro whole)])

theorem unpack_answersWith_error {data : List Byte} (partialGroup : data.length % 3 ≠ 0) (s : State) :
    AnswersWith (.unpack data) s (errorResponse .byteCount) :=
  answersWith_iff.2 (by rw [responseTo, if_pos partialGroup])

theorem unpack_answersWith_ok {data : List Byte} (whole : data.length % 3 = 0) (s : State) :
    AnswersWith (.unpack data) s (okResponse (unpackSyms data)) :=
  answersWith_iff.2 (by rw [responseTo, if_neg (not_not_intro whole)])

/-- Every command but a PACK outside the alphabet is answered without a free value. -/
theorem responseTo_eq_of_packSafe {i : Instr} (safe : i.packSafe = true) (stamp stamp' : Nat) :
    responseTo stamp i = responseTo stamp' i := by
  cases i with
  | pack data =>
    by_cases whole : data.length % 4 = 0
    · simp only [responseTo, packBytes_eq_of_symbols whole safe stamp 0 stamp' 0]
    · simp only [responseTo, if_pos whole]
  | unpack data => rfl
  | validate data => rfl
  | op3 data => rfl

theorem answersWith_unique_of_packSafe {i : Instr} (safe : i.packSafe = true) {s s' : State} {p p' : Response}
    (answer : AnswersWith i s p) (answer' : AnswersWith i s' p') : p = p' := by
  rw [answersWith_iff.1 answer, answersWith_iff.1 answer', responseTo_eq_of_packSafe safe]

/-- Settles O33: on whole groups each loop undoes the other, group by group, since both primitives cut and build one
24-bit word; the packing of Symbols is the same in every state. -/
theorem codecRoundTrip : Obligations.CodecRoundTrip := by
  refine ⟨fun data whole symbols => ⟨packBytes 0 0 data, fun s => ⟨?_, ?_⟩⟩,
    fun data whole => ⟨unpackSyms data, fun s => ⟨unpack_answersWith_ok whole s, ?_⟩⟩,
    fun _ _ _ _ symbols => exists_pack4_unpack3 symbols, exists_unpack3_pack4⟩
  · rw [packBytes_eq_of_symbols whole symbols 0 0 s.stamp 0]
    exact pack_answersWith_ok whole s
  · have answer := unpack_answersWith_ok (data := packBytes 0 0 data)
      (by simp [packBytes_length_of_whole whole]) s
    rwa [unpackSyms_packBytes whole symbols] at answer
  · have answer := pack_answersWith_ok (data := unpackSyms data)
      (by simp [unpackSyms_length_of_whole whole]) s
    rwa [packBytes_unpackSyms whole] at answer

/-- Settles O14: the two branches of the length check; the bytes at a group's place are `packGroup` of the group, which is
`PACK4` where that is defined. -/
theorem packAnswers : Obligations.PackAnswers := by
  refine fun data s => ⟨fun partialGroup => pack_answersWith_error partialGroup s, fun whole =>
    ⟨packBytes s.stamp 0 data, pack_answersWith_ok whole s, ?_, fun g within => ?_⟩⟩
  · rw [packBytes_length_of_whole whole]
    omega
  · obtain ⟨c0, c1, c2, c3, read, packed⟩ := memRead_packBytes whole s.stamp 0 within
    refine ⟨c0, c1, c2, c3, read, fun symbols => ?_⟩
    obtain ⟨b0, b1, b2, defined, -⟩ := exists_pack4_unpack3 symbols
    rw [packed, packGroup_of_pack4 defined, defined]

/-- Settles O15: the two branches of the length check; the symbols at a group's place are `UNPACK3` of the group. -/
theorem unpackAnswers : Obligations.UnpackAnswers := by
  refine fun data s => ⟨fun partialGroup => unpack_answersWith_error partialGroup s, fun whole =>
    ⟨unpackSyms data, unpack_answersWith_ok whole s, ?_, allSymbols_unpackSyms whole,
      fun g within => memRead_unpackSyms whole within⟩⟩
  rw [unpackSyms_length_of_whole whole]
  omega

/-- Settles O30: UNPACK always, and PACK on Symbols, is answered without a free value. -/
theorem codecDeterministic : Obligations.CodecDeterministic := fun data _ _ _ _ =>
  ⟨answersWith_unique_of_packSafe (i := .unpack data) rfl,
    fun symbols => answersWith_unique_of_packSafe (i := .pack data) symbols⟩

end Sys2Proof.Machine
end

section

/-! The validator's two checks (42_validator.md R60, R61), each as a condition on the operand. -/

namespace Sys2Proof.Machine

theorem lenOk_iff {n : Nat} : lenOk n = true ↔ n % 4 = 0 ∧ 16 ≤ n := by
  simp [lenOk]

/-- Settles O18: the two comparisons of `lenOk` read as conditions, and the listed lengths by evaluation. -/
theorem lengthCheck : Obligations.LengthCheck :=
  ⟨fun _ => lenOk_iff, by decide, by decide, by decide⟩

theorem firstBad_cons_symbol {c : Byte} (symbol : inAlpha c = true) (rest : List Byte) :
    firstBad (c :: rest) = (firstBad rest).map fun p => (p.1 + 1, p.2) :=
  if_pos symbol

theorem firstBad_cons_outside {c : Byte} (outside : inAlpha c = false) (rest : List Byte) :
    firstBad (c :: rest) = some (0, c) :=
  if_neg (by simp [outside])

@[simp] theorem allSymbols_nil : allSymbols [] = true := rfl

@[simp] theorem allSymbols_cons (c : Byte) (rest : List Byte) :
    allSymbols (c :: rest) = (inAlpha c && allSymbols rest) := List.all_cons

theorem allSymbols_iff_forall_mem {data : List Byte} :
    allSymbols data = true ↔ ∀ c ∈ data, inAlpha c = true := List.all_eq_true

theorem allSymbols_take_iff {data : List Byte} {n : Nat} :
    allSymbols (data.take n) = true ↔ ∀ k c, k < n → data[k]? = some c → inAlpha c = true := by
  simp only [allSymbols_iff_forall_mem, List.mem_iff_getElem?, List.getElem?_take, Option.ite_none_right_eq_some]
  exact ⟨fun all k c before here => all c ⟨k, before, here⟩, fun all c ⟨k, before, here⟩ => all k c before here⟩

/-- The scan stops at the element outside the alphabet that has Symbols only before it. -/
theorem firstBad_eq_some_iff {data : List Byte} {pos : Nat} {sym : Byte} :
    firstBad data = some (pos, sym) ↔
      data[pos]? = some sym ∧ inAlpha sym = false ∧ allSymbols (data.take pos) = true := by
  induction data generalizing pos with
  | nil => simp [firstBad]
  | cons c rest ih =>
    cases inside : inAlpha c with
    | false =>
      rw [firstBad_cons_outside inside]
      cases pos with
      | zero => simpa using fun same : c = sym => same ▸ inside
      | succ pos => simp [inside]
    | true =>
      rw [firstBad_cons_symbol inside]
      cases pos with
      | zero => simpa using fun same : c = sym => same ▸ inside
      | succ pos => simpa [inside] using ih (pos := pos)

/-- Settles O19: a scan that finds nothing has passed every element, and one that stops has passed those before. -/
theorem firstBadIsLeast : Obligations.FirstBadIsLeast := fun data =>
  ⟨(firstBad_eq_none_iff data).trans allSymbols_iff_forall_mem, fun pos sym => by
    rw [firstBad_eq_some_iff, allSymbols_take_iff]⟩

end Sys2Proof.Machine
end

section

/-! VALIDATE (42_validator.md R62 to R65): which response each operand is answered with, and what OK says of it. -/

namespace Sys2Proof.Machine

theorem validate_answersWith_length {data : List Byte} (badLength : lenOk data.length = false) (s : State) :
    AnswersWith (.validate data) s (errorResponse .length) :=
  answersWith_iff.2 (by simp [responseTo, badLength])

theorem validate_answersWith_ok {data : List Byte} (sized : lenOk data.length = true)
    (symbols : allSymbols data = true) (s : State) : AnswersWith (.validate data) s (okResponse []) :=
  answersWith_iff.2 (by simp [responseTo, sized, (firstBad_eq_none_iff data).2 symbols])

theorem validate_answersWith_forbiddenSymbol {data : List Byte} {pos : Nat} {sym : Byte}
    (sized : lenOk data.length = true) (found : firstBad data = some (pos, sym)) (s : State) :
    AnswersWith (.validate data) s (errorResponse (.forbiddenSymbol sym pos)) :=
  answersWith_iff.2 (by simp [responseTo, sized, found])

/-- VALIDATE meets no free value, so one response is its answer in every state. -/
theorem validate_answersWith_unique {data : List Byte} {s s' : State} {p p' : Response}
    (answer : AnswersWith (.validate data) s p) (answer' : AnswersWith (.validate data) s' p') : p = p' :=
  answersWith_unique_of_packSafe rfl answer answer'

/-- Settles O16: the length check, then the scan, which stops at the first element outside the alphabet. -/
theorem validateAnswers : Obligations.ValidateAnswers := by
  refine fun data s => ⟨fun badLength => ?_, fun whole long =>
    ⟨fun symbols => ?_, fun pos sym here outside before => ?_⟩⟩
  · exact validate_answersWith_length (Bool.eq_false_iff.2 (mt lenOk_iff.1 badLength)) s
  · exact validate_answersWith_ok (lenOk_iff.2 ⟨whole, long⟩) symbols s
  · exact validate_answersWith_forbiddenSymbol (lenOk_iff.2 ⟨whole, long⟩)
      (firstBad_eq_some_iff.2 ⟨here, outside, before⟩) s

/-- The three ends of VALIDATE. -/
theorem validate_cases (data : List Byte) :
    (lenOk data.length = false ∧ ∀ s, AnswersWith (.validate data) s (errorResponse .length)) ∨
    (lenOk data.length = true ∧ allSymbols data = true ∧
      ∀ s, AnswersWith (.validate data) s (okResponse [])) ∨
    (∃ pos sym, lenOk data.length = true ∧ firstBad data = some (pos, sym) ∧
      ∀ s, AnswersWith (.validate data) s (errorResponse (.forbiddenSymbol sym pos))) := by
  cases sized : lenOk data.length with
  | false => exact .inl ⟨rfl, validate_answersWith_length sized⟩
  | true =>
    cases found : firstBad data with
    | none =>
      have symbols := (firstBad_eq_none_iff data).1 found
      exact .inr (.inl ⟨rfl, symbols, validate_answersWith_ok sized symbols⟩)
    | some bad => exact .inr (.inr ⟨_, _, rfl, rfl, validate_answersWith_forbiddenSymbol sized found⟩)

/-- Settles O29: each of the three ends is one response in every state, and no state has another. -/
theorem validateTotal : Obligations.ValidateTotal := by
  intro data
  suffices ∃ p, (∀ s, AnswersWith (.validate data) s p) ∧
      (p.status = .ok ∨ p.status = .lengthError ∨ p.status = .forbiddenSymbolError) from
    let ⟨p, answers, status⟩ := this
    ⟨p, answers, fun s _ other => validate_answersWith_unique other (answers s), status⟩
  obtain ⟨-, answers⟩ | ⟨-, -, answers⟩ | ⟨pos, sym, -, -, answers⟩ := validate_cases data
  · exact ⟨_, answers, .inr (.inl rfl)⟩
  · exact ⟨_, answers, .inl rfl⟩
  · exact ⟨_, answers, .inr (.inr rfl)⟩

/-- OK is the answer to a Password, and the other two ends have another status. -/
theorem validate_answersWith_status_ok_iff {data : List Byte} {s : State} :
    (∃ p, AnswersWith (.validate data) s p ∧ p.status = .ok) ↔
      data.length % 4 = 0 ∧ 16 ≤ data.length ∧ allSymbols data = true := by
  rw [← and_assoc, ← lenOk_iff]
  refine ⟨fun ⟨p, answer, ok⟩ => ?_, fun ⟨sized, symbols⟩ => ⟨_, validate_answersWith_ok sized symbols s, rfl⟩⟩
  obtain ⟨-, answers⟩ | ⟨sized, symbols, -⟩ | ⟨pos, sym, -, -, answers⟩ := validate_cases data
  · cases validate_answersWith_unique answer (answers s)
    cases ok
  · exact ⟨sized, symbols⟩
  · cases validate_answersWith_unique answer (answers s)
    cases ok

/-- Settles O28: a Password is a sequence of whole groups of Symbols, so the codec's round trip holds of it, and the
packing has three bytes for each of its four groups or more. -/
theorem validateOkEstablishes : Obligations.ValidateOkEstablishes := by
  refine fun data s => ⟨validate_answersWith_status_ok_iff, fun ok => ?_⟩
  obtain ⟨whole, long, symbols⟩ := validate_answersWith_status_ok_iff.1 ok
  obtain ⟨out, answers⟩ := codecRoundTrip.1 data whole symbols
  obtain ⟨packed, packAnswer, length, -⟩ := (packAnswers data s).2 whole
  have same : out = packed := congrArg Response.out
    ((codecDeterministic data s s _ _).2 symbols (answers s).1 packAnswer)
  rw [← same] at length
  exact ⟨out, length, by omega, fun s' => (answers s').1, fun s' => (answers s').2⟩

end Sys2Proof.Machine
end

section

/-! What two answers to one command have in common, whatever the states they were given in: everything but the free bytes
of 41_codec.md R54. -/

namespace Sys2Proof.Machine

/-- In one state a command has one answer. -/
theorem answersWith_functional {i : Instr} {s : State} {p p' : Response}
    (answer : AnswersWith i s p) (answer' : AnswersWith i s p') : p = p' :=
  (answersWith_iff.1 answer).trans (answersWith_iff.1 answer').symm

theorem memRead_of_length_le {seq : List Byte} {i : Nat} (past : seq.length ≤ i) (n : Nat) :
    memRead seq i n = [] := by
  rw [memRead, List.drop_eq_nil_of_le past, List.take_nil]

/-- At the place of a group of Symbols no free value is drawn, whatever the other groups hold; past the last group there
is nothing to draw. -/
theorem memRead_packBytes_eq_of_symbols {data : List Byte} (whole : data.length % 4 = 0) {g : Nat}
    (symbols : allSymbols (memRead data (4 * g) 4) = true) (stamp stamp' : Nat) :
    memRead (packBytes stamp 0 data) (3 * g) 3 = memRead (packBytes stamp' 0 data) (3 * g) 3 := by
  by_cases within : g < data.length / 4
  · obtain ⟨c0, c1, c2, c3, read, packed⟩ := memRead_packBytes whole stamp 0 within
    obtain ⟨d0, d1, d2, d3, read', packed'⟩ := memRead_packBytes whole stamp' 0 within
    obtain ⟨rfl, rfl, rfl, rfl⟩ : c0 = d0 ∧ c1 = d1 ∧ c2 = d2 ∧ c3 = d3 := by
      simpa using read.symm.trans read'
    obtain ⟨b0, b1, b2, defined, -⟩ := exists_pack4_unpack3 (read ▸ symbols)
    rw [packed, packed', packGroup_of_pack4 defined, packGroup_of_pack4 defined]
  · have past (stamp : Nat) : (packBytes stamp 0 data).length ≤ 3 * g := by
      rw [packBytes_length_of_whole whole]
      omega
    rw [memRead_of_length_le (past stamp), memRead_of_length_le (past stamp')]

theorem sameUpToDraws_refl (i : Instr) (p : Response) : SameUpToDraws i p p :=
  ⟨rfl, rfl, rfl, rfl, fun _ => rfl, fun _ _ => rfl⟩

theorem sameUpToDraws_packBytes {data : List Byte} (whole : data.length % 4 = 0) (stamp stamp' : Nat) :
    SameUpToDraws (.pack data) (okResponse (packBytes stamp 0 data)) (okResponse (packBytes stamp' 0 data)) :=
  ⟨rfl, rfl, rfl,
    (packBytes_length_of_whole whole stamp 0).trans (packBytes_length_of_whole whole stamp' 0).symm,
    fun symbols => packBytes_eq_of_symbols whole symbols stamp 0 stamp' 0,
    fun _ symbols => memRead_packBytes_eq_of_symbols whole symbols stamp stamp'⟩

/-- Only the answer to a PACK of whole groups depends on the state at all. -/
theorem sameUpToDraws_of_answersWith {i : Instr} {s s' : State} {p p' : Response}
    (answer : AnswersWith i s p) (answer' : AnswersWith i s' p') : SameUpToDraws i p p' := by
  cases i with
  | pack data =>
    by_cases whole : data.length % 4 = 0
    · rw [answersWith_functional answer (pack_answersWith_ok whole s),
        answersWith_functional answer' (pack_answersWith_ok whole s')]
      exact sameUpToDraws_packBytes whole s.stamp s'.stamp
    · rw [answersWith_functional answer (pack_answersWith_error whole s),
        answersWith_functional answer' (pack_answersWith_error whole s')]
      exact sameUpToDraws_refl _ _
  | unpack | validate | op3 =>
    rw [answersWith_unique_of_packSafe rfl answer answer']
    exact sameUpToDraws_refl _ _

theorem ps_idle_of_exec {i : Instr} {s t : State} (executed : exec i s = .next t) : t.ps = .idle := by
  rw [exec_eq_deliver] at executed
  cases executed
  exact deliver_ps _ s

/-- Settles O27: every command, failed or not, leaves the block Idle, and the two answers to the next command, in the state
before the failed one and in the state after it, agree as the answers in any two states do. -/
theorem errorLeavesNothingBehind : Obligations.ErrorLeavesNothingBehind :=
  fun _ _ _ _ _ _ _ _ _ executed => ⟨ps_idle_of_exec executed, sameUpToDraws_of_answersWith⟩

end Sys2Proof.Machine
end

section

/-! The exceptions (60_exceptions.md R70 to R74): which command raises which and when, and what each delivers. -/

namespace Sys2Proof.Machine

/-- The table of R70: the command that meets an exception, and its cause. In VALIDATE the scan's cause presupposes that
the length check has passed (R73). -/
inductive Raises : Instr → Exception → Prop where
  | symbolCount {data : List Byte} (partialGroup : data.length % 4 ≠ 0) : Raises (.pack data) .symbolCount
  | byteCount {data : List Byte} (partialGroup : data.length % 3 ≠ 0) : Raises (.unpack data) .byteCount
  | length {data : List Byte} (badLength : lenOk data.length = false) : Raises (.validate data) .length
  | forbiddenSymbol {data : List Byte} {pos : Nat} {sym : Byte} (sized : lenOk data.length = true)
      (found : firstBad data = some (pos, sym)) : Raises (.validate data) (.forbiddenSymbol sym pos)
  | illegalCommand {data : List Byte} : Raises (.op3 data) .illegalCommand

theorem Raises.answersWith {i : Instr} {x : Exception} (raised : Raises i x) (s : State) :
    AnswersWith i s (errorResponse x) := by
  cases raised with
  | symbolCount partialGroup => exact pack_answersWith_error partialGroup s
  | byteCount partialGroup => exact unpack_answersWith_error partialGroup s
  | length badLength => exact validate_answersWith_length badLength s
  | forbiddenSymbol sized found => exact validate_answersWith_forbiddenSymbol sized found s
  | illegalCommand => exact op3_answersWith_illegalCommand _ s

theorem Raises.response_eq {i : Instr} {x : Exception} {s : State} {p : Response} (raised : Raises i x)
    (answer : AnswersWith i s p) : p = errorResponse x :=
  answersWith_functional answer (raised.answersWith s)

/-- An answer is OK, or that of an exception the command meets: there is no other cause. -/
theorem answersWith_cases {i : Instr} {s : State} {p : Response} (answer : AnswersWith i s p) :
    (∃ out, p = okResponse out) ∨ ∃ x, Raises i x ∧ p = errorResponse x := by
  have ok {out : List Byte} (answer' : AnswersWith i s (okResponse out)) : ∃ out, p = okResponse out :=
    ⟨out, answersWith_functional answer answer'⟩
  have error {x : Exception} (raised : Raises i x) : ∃ x, Raises i x ∧ p = errorResponse x :=
    ⟨x, raised, raised.response_eq answer⟩
  cases i with
  | pack data =>
    by_cases whole : data.length % 4 = 0
    · exact .inl (ok (pack_answersWith_ok whole s))
    · exact .inr (error (.symbolCount whole))
  | unpack data =>
    by_cases whole : data.length % 3 = 0
    · exact .inl (ok (unpack_answersWith_ok whole s))
    · exact .inr (error (.byteCount whole))
  | validate data =>
    obtain ⟨badLength, -⟩ | ⟨-, -, answers⟩ | ⟨pos, sym, sized, found, -⟩ := validate_cases data
    · exact .inr (error (.length badLength))
    · exact .inl (ok (answers s))
    · exact .inr (error (.forbiddenSymbol sized found))
  | op3 data => exact .inr (error .illegalCommand)

theorem exceptionStatus_ne_ok (x : Exception) : exceptionStatus x ≠ .ok := by
  cases x <;> nofun

/-- A status other than OK is answered exactly where an exception of that status is raised. -/
theorem status_eq_iff_raises {i : Instr} {s : State} {p : Response} (answer : AnswersWith i s p)
    {status : Status} (error : status ≠ .ok) :
    p.status = status ↔ ∃ x, Raises i x ∧ exceptionStatus x = status := by
  constructor
  · rintro rfl
    obtain ⟨out, rfl⟩ | ⟨x, raised, rfl⟩ := answersWith_cases answer
    · exact absurd rfl error
    · exact ⟨x, raised, rfl⟩
  · rintro ⟨x, raised, rfl⟩
    rw [raised.response_eq answer, errorResponse]

theorem raises_symbolCountError_iff {i : Instr} :
    (∃ x, Raises i x ∧ exceptionStatus x = .symbolCountError) ↔
      ∃ data, i = .pack data ∧ data.length % 4 ≠ 0 := by
  constructor
  · rintro ⟨_, partialGroup | _ | _ | _ | _, ⟨⟩⟩
    exact ⟨_, rfl, partialGroup⟩
  · rintro ⟨data, rfl, partialGroup⟩
    exact ⟨_, .symbolCount partialGroup, rfl⟩

theorem raises_byteCountError_iff {i : Instr} :
    (∃ x, Raises i x ∧ exceptionStatus x = .byteCountError) ↔
      ∃ data, i = .unpack data ∧ data.length % 3 ≠ 0 := by
  constructor
  · rintro ⟨_, _ | partialGroup | _ | _ | _, ⟨⟩⟩
    exact ⟨_, rfl, partialGroup⟩
  · rintro ⟨data, rfl, partialGroup⟩
    exact ⟨_, .byteCount partialGroup, rfl⟩

theorem lenOk_eq_false_iff {n : Nat} : lenOk n = false ↔ n % 4 ≠ 0 ∨ n < 16 := by
  rw [← Bool.not_eq_true, lenOk_iff]
  omega

theorem raises_lengthError_iff {i : Instr} :
    (∃ x, Raises i x ∧ exceptionStatus x = .lengthError) ↔
      ∃ data, i = .validate data ∧ (data.length % 4 ≠ 0 ∨ data.length < 16) := by
  simp only [← lenOk_eq_false_iff]
  constructor
  · rintro ⟨_, _ | _ | badLength | _ | _, ⟨⟩⟩
    exact ⟨_, rfl, badLength⟩
  · rintro ⟨data, rfl, badLength⟩
    exact ⟨_, .length badLength, rfl⟩

/-- The scan finds something exactly when there is something to find. -/
theorem exists_firstBad_iff {data : List Byte} :
    (∃ pos sym, firstBad data = some (pos, sym)) ↔ ∃ c ∈ data, inAlpha c = false := by
  rw [← Prod.exists', ← Option.ne_none_iff_exists', ne_eq, firstBad_eq_none_iff, allSymbols_iff_forall_mem]
  simp

theorem raises_forbiddenSymbolError_iff {i : Instr} :
    (∃ x, Raises i x ∧ exceptionStatus x = .forbiddenSymbolError) ↔
      ∃ data, i = .validate data ∧ data.length % 4 = 0 ∧ 16 ≤ data.length ∧ ∃ c ∈ data, inAlpha c = false := by
  simp only [← exists_firstBad_iff]
  constructor
  · rintro ⟨_, _ | _ | _ | ⟨sized, found⟩ | _, ⟨⟩⟩
    obtain ⟨whole, long⟩ := lenOk_iff.1 sized
    exact ⟨_, rfl, whole, long, _, _, found⟩
  · rintro ⟨data, rfl, whole, long, pos, sym, found⟩
    exact ⟨_, .forbiddenSymbol (lenOk_iff.2 ⟨whole, long⟩) found, rfl⟩

theorem raises_illegalCommand_iff {i : Instr} :
    (∃ x, Raises i x ∧ exceptionStatus x = .illegalCommand) ↔ ∃ data, i = .op3 data := by
  constructor
  · rintro ⟨_, _ | _ | _ | _ | _, ⟨⟩⟩
    exact ⟨_, rfl⟩
  · rintro ⟨data, rfl⟩
    exact ⟨_, .illegalCommand, rfl⟩

theorem statusCode_toNat_lt (x : Status) : (statusCode x).toNat < 6 := by
  cases x <;> decide

/-- Settles O21: each status other than OK is that of one row of the table of causes, and `op = 3` always has its row. -/
theorem statusCodesAndCauses : Obligations.StatusCodesAndCauses := by
  refine ⟨⟨rfl, rfl, rfl, rfl, rfl, rfl⟩, fun x => ⟨fun six => ?_, fun seven => ?_⟩, fun i s p answer =>
    ⟨?_, ?_, ?_, ?_, ?_, ?_⟩⟩
  · exact absurd (statusCode_toNat_lt x) (by rw [six]; decide)
  · exact absurd (statusCode_toNat_lt x) (by rw [seven]; decide)
  · rintro ok data rfl
    rw [Raises.illegalCommand.response_eq answer] at ok
    cases ok
  · exact (status_eq_iff_raises answer (by decide)).trans raises_symbolCountError_iff
  · exact (status_eq_iff_raises answer (by decide)).trans raises_byteCountError_iff
  · exact (status_eq_iff_raises answer (by decide)).trans raises_lengthError_iff
  · exact (status_eq_iff_raises answer (by decide)).trans raises_forbiddenSymbolError_iff
  · exact (status_eq_iff_raises answer (by decide)).trans raises_illegalCommand_iff

theorem errorResponse_fields_absent {x : Exception} (other : ∀ sym pos, x ≠ .forbiddenSymbol sym pos) :
    (errorResponse x).errSym = none ∧ (errorResponse x).errPos = none := by
  cases x with
  | forbiddenSymbol sym pos => exact absurd rfl (other sym pos)
  | symbolCount | byteCount | length | illegalCommand => exact ⟨rfl, rfl⟩

/-- Settles O26: `raise` delivers `errorResponse x`, whose fields are those of the exception. -/
theorem errorDelivery : Obligations.ErrorDelivery := by
  refine fun x s => ⟨deliver (errorResponse x) s, errorResponse x, rfl, deliver_ps _ s, deliver_delivered _ s,
    deliver_port _ s, deliver_rst _ s, rfl, exceptionStatus_ne_ok x, rfl, ?_, errorResponse_fields_absent⟩
  rintro sym pos rfl
  exact ⟨rfl, rfl⟩

/-- Settles O23: an OK response has no error fields, and an error response is that of an exception, of which only the
scan's records anything: the place it stopped at. -/
theorem errorRecords : Obligations.ErrorRecords := by
  intro i s p answer
  obtain ⟨out, rfl⟩ | ⟨x, raised, rfl⟩ := answersWith_cases answer
  · exact ⟨fun error => absurd rfl error, fun _ => ⟨rfl, rfl⟩, nofun⟩
  · refine ⟨fun _ => rfl, fun other => errorResponse_fields_absent ?_, fun forbidden => ?_⟩
    · rintro sym pos rfl
      exact other rfl
    · cases raised with
      | forbiddenSymbol sized found =>
        obtain ⟨here, -, -⟩ := firstBad_eq_some_iff.1 found
        exact ⟨_, _, rfl, rfl, here⟩
      | symbolCount | byteCount | length | illegalCommand => cases forbidden

/-- An index that a VALIDATE reports has no element outside the alphabet before it. -/
theorem allSymbols_take_of_errPos {data : List Byte} {s : State} {p : Response} {pos : Nat}
    (answer : AnswersWith (.validate data) s p) (reported : p.errPos = some pos) :
    allSymbols (data.take pos) = true := by
  obtain ⟨out, rfl⟩ | ⟨x, raised, rfl⟩ := answersWith_cases answer
  · cases reported
  · cases raised with
    | length => cases reported
    | forbiddenSymbol sized found =>
      cases reported
      obtain ⟨-, -, before⟩ := firstBad_eq_some_iff.1 found
      exact before

/-- Settles O25: a bad length is a cause whatever the elements; an index with an element outside the alphabet before it is
not reported; and the answer to `op = 3` does not mention the operand. -/
theorem errorPriority : Obligations.ErrorPriority := by
  refine ⟨fun data s p badLength answer => ?_, fun data s p i j c d before here outside _ _ answer reported => ?_,
    fun data data' s p answer => ?_⟩
  · rw [(Raises.length badLength).response_eq answer]
    rfl
  · have inside := allSymbols_take_iff.1 (allSymbols_take_of_errPos answer reported) i c before here
    exact Bool.false_ne_true (outside.symm.trans inside)
  · rw [Raises.illegalCommand.response_eq answer]
    exact Raises.illegalCommand.answersWith s

end Sys2Proof.Machine
end

section

/-! What a reset changes for the transaction in progress and for later ones (70_reset_and_hazards.md R81, R82): it abandons
the one in progress, and no later response depends on it. -/

namespace Sys2Proof.Machine

/-- Settles O41: the step is `takeReset`, which leaves the block Idle, and the state it leaves answers a command as any two
states do, up to the free bytes. -/
theorem resetChangesNoResponse : Obligations.ResetChangesNoResponse :=
  fun s asserted =>
    ⟨takeReset s, step_of_reset_asserted asserted, takeReset_ps s, fun _ _ _ _ => sameUpToDraws_of_answersWith⟩

/-- Settles O42: a step that finds reset asserted takes it and does not answer, so the list of deliveries stays as it was
before reset was asserted. That the block was Busy is not needed: an Idle one delivers nothing either. -/
theorem resetAbandonsTransaction : Obligations.ResetAbandonsTransaction := by
  intro s _ _
  have taken : step (assertReset s) = .next (takeReset (assertReset s)) :=
    step_of_reset_asserted (assertReset_rst s)
  have undelivered : (takeReset (assertReset s)).delivered = s.delivered := by
    rw [takeReset_delivered, assertReset_delivered]
  exact ⟨takeReset (assertReset s), taken, takeReset_ps (assertReset s), undelivered⟩

end Sys2Proof.Machine
end

section

/-! What a step does to a block in each protocol state (10_state.md R17, 70_reset_and_hazards.md R84), and the
transitions of the protocol state that follow. -/

namespace Sys2Proof.Machine

/-- A Busy block executes the command of its request, with nothing around it. -/
theorem step_of_busy {s : State} {o : Offer} (running : s.rst = false) (busy : s.ps = .busy o) :
    step s = exec (decode o.req) s := by
  simp [step, running, busy]

/-- The step of a Busy block in which a given response answers the transaction. -/
theorem step_of_busy_answersWith {s : State} {o : Offer} {p : Response} (running : s.rst = false)
    (busy : s.ps = .busy o) (answer : AnswersWith (decode o.req) s p) : step s = .next (deliver p s) := by
  rw [step_of_busy running busy, exec_eq_deliver, ← answersWith_iff.1 answer]

theorem step_of_idle_of_request {s : State} {o : Offer} {rest : List Offer} (running : s.rst = false)
    (idle : s.ps = .idle) (waiting : s.port = o :: rest) :
    step s = .next { s with ps := .busy o, port := rest } := by
  simp [step, running, idle, accept_of_request waiting]

theorem step_of_idle_of_no_request {s : State} (running : s.rst = false) (idle : s.ps = .idle)
    (noneWaiting : s.port = []) : step s = .next s := by
  simp [step, running, idle, accept_of_no_request noneWaiting]

theorem exists_answersWith (i : Instr) (s : State) : ∃ p, AnswersWith i s p :=
  ⟨_, answersWith_iff.2 rfl⟩

theorem deliver_delivered_of_busy {s : State} {o : Offer} (busy : s.ps = .busy o) (p : Response) :
    (deliver p s).delivered = s.delivered ++ [{ caller := some o.caller, response := p }] := by
  rw [deliver_delivered, callerOf_busy busy]

/-- Settles O38: each of the four kinds of step, by its own equation. -/
theorem protocolStateTransitions : Obligations.ProtocolStateTransitions := by
  refine ⟨fun s o rest running idle waiting => ⟨_, step_of_idle_of_request running idle waiting, rfl⟩,
    fun s o running busy => ?_, fun s asserted => ⟨_, step_of_reset_asserted asserted, takeReset_ps s⟩,
    fun s running idle noneWaiting => ⟨s, step_of_idle_of_no_request running idle noneWaiting, idle⟩⟩
  obtain ⟨p, answer⟩ := exists_answersWith (decode o.req) s
  exact ⟨deliver p s, p, step_of_busy_answersWith running busy answer, deliver_ps p s,
    deliver_delivered_of_busy busy p, answer⟩

/-- Settles O39: the steps that run no command, by their equations; `takeReset` is the update written out. -/
theorem nonCommandStepFrames : Obligations.NonCommandStepFrames :=
  ⟨fun _ asserted => step_of_reset_asserted asserted,
    fun _ _ _ running idle waiting => step_of_idle_of_request running idle waiting,
    fun _ running idle noneWaiting => step_of_idle_of_no_request running idle noneWaiting⟩

/-- A table word that decodes to a command is placed as an accepted request for it. -/
theorem withFetchWord_of_decodeTableWord {nbits w : Nat} {i : Instr} (s : State)
    (decoded : decodeTableWord nbits w = some i) :
    ∃ o, decode o.req = i ∧ s.withFetchWord nbits w = withAccepted o s := by
  obtain ⟨r, word, rfl⟩ := Option.map_eq_some_iff.1 decoded
  exact ⟨{ caller := { host := 0, call := 0 }, req := r }, rfl, by
    simp [State.withFetchWord, withTableWord, word]⟩

/-- Settles O5: the step of a Busy block, and of the Busy block that a placed table word makes. -/
theorem stepRunsDecodedCommand : Obligations.StepRunsDecodedCommand := by
  refine ⟨fun s o => step_of_busy, fun s nbits w i decoded => ?_⟩
  obtain ⟨o, rfl, placed⟩ := withFetchWord_of_decodeTableWord s decoded
  refine ⟨o, rfl, ?_⟩
  rw [placed]
  exact step_of_busy (withAccepted_rst o s) (withAccepted_ps o s)

/-- Settles O52: of the four things a step can do, only answering delivers. -/
theorem responseGoesToItsCaller : Obligations.ResponseGoesToItsCaller := by
  intro s t stepped
  obtain ⟨-, next⟩ | ⟨o, running, busy, next⟩ | ⟨o, rest, -, -, -, next⟩ | ⟨-, -, -, next⟩ := step_cases s <;>
    cases next.symm.trans stepped
  · exact .inl (takeReset_delivered s)
  · exact .inr ⟨o, _, running, busy, answersWith_iff.2 rfl, deliver_delivered_of_busy busy _⟩
  · exact .inl rfl
  · exact .inl rfl

/-- The step of a Busy block written out: the caller stands on the delivery, the response is that of the command, and the
rest is the same whatever was in progress. -/
theorem step_busy_eq {s : State} (running : s.rst = false) (o : Offer) :
    step { s with ps := .busy o } = .next { s with
      ps := .idle
      stamp := s.stamp + 1
      delivered := s.delivered ++ [{ caller := some o.caller, response := responseTo s.stamp (decode o.req) }] } :=
  step_of_busy_answersWith running rfl (answersWith_iff.2 rfl)

/-- Settles O54: the response to a command does not mention the caller, and the head of the port is accepted as it stands. -/
theorem callerUnknownToBlock : Obligations.CallerUnknownToBlock := fun s c c' r running =>
  ⟨⟨{ s with ps := .idle, stamp := s.stamp + 1 }, responseTo s.stamp (decode r),
      step_busy_eq running { caller := c, req := r }, step_busy_eq running { caller := c', req := r }⟩,
    fun _ => step_of_idle_of_request running rfl rfl⟩

/-- Settles O32: an answer leaves Idle, the count of answers and one delivery, and a reset leaves Idle; neither keeps the
request. -/
theorem nothingRetained : Obligations.NothingRetained := by
  refine fun s o o' => ⟨fun running => ?_, fun asserted => ?_⟩
  · exact ⟨{ s with ps := .idle, stamp := s.stamp + 1 }, _, _, rfl, step_busy_eq running o, step_busy_eq running o'⟩
  · rw [step_of_reset_asserted (s := { s with ps := .busy o }) asserted,
      step_of_reset_asserted (s := { s with ps := .busy o' }) asserted]
    rfl

/-- Settles O31: `exec` is total, and any two answers to a command agree up to the free bytes. -/
theorem responseDependsOnRequestOnly : Obligations.ResponseDependsOnRequestOnly :=
  fun i => ⟨exists_answersWith i, fun _ _ _ _ => sameUpToDraws_of_answersWith⟩

/-- Only an Idle block becomes Busy, with a request that was waiting. -/
theorem idle_and_mem_port_of_step_busy {s t : State} {o : Offer} (stepped : step s = .next t)
    (busy : t.ps = .busy o) (running : s.rst = false) : s.ps = .idle ∧ o ∈ s.port := by
  obtain ⟨asserted, -⟩ | ⟨_, -, -, next⟩ | ⟨_, rest, -, idle, waiting, next⟩ | ⟨-, idle, -, next⟩ := step_cases s
  · cases running.symm.trans asserted
  all_goals cases next.symm.trans stepped
  · cases busy
  · cases busy
    exact ⟨idle, by simp [waiting]⟩
  · cases idle.symm.trans busy

/-- An offer at the spec's default `MAX_LEN` is always queued, and changes nothing but the port. -/
theorem offer_frame (c : Caller) (r : Request) (s : State) :
    ∃ t, offer c r s = .next t ∧ t.ps = s.ps ∧ t.port = s.port ++ [{ caller := c, req := r }] ∧
      t.rst = s.rst ∧ t.delivered = s.delivered ∧ t.stamp = s.stamp :=
  ⟨_, rfl, rfl, rfl, rfl, rfl, rfl⟩

/-- The answering step of a transaction, with its frame. -/
theorem exists_step_of_busy {s : State} {o : Offer} (running : s.rst = false) (busy : s.ps = .busy o) :
    ∃ t p, step s = .next t ∧ t.ps = .idle ∧ t.port = s.port ∧ t.rst = false ∧
      t.delivered = s.delivered ++ [{ caller := some o.caller, response := p }] ∧
      AnswersWith (decode o.req) s p := by
  obtain ⟨p, answer⟩ := exists_answersWith (decode o.req) s
  exact ⟨deliver p s, p, step_of_busy_answersWith running busy answer, deliver_ps p s, deliver_port p s, running,
    deliver_delivered_of_busy busy p, answer⟩

/-- The two steps that serve the oldest waiting request. -/
theorem exists_steps_of_request {s : State} {o : Offer} {rest : List Offer} (running : s.rst = false)
    (idle : s.ps = .idle) (waiting : s.port = o :: rest) :
    ∃ t u p, step s = .next t ∧ t.ps = .busy o ∧ t.port = rest ∧
      step t = .next u ∧ u.ps = .idle ∧ u.port = rest ∧ u.rst = false ∧
      u.delivered = s.delivered ++ [{ caller := some o.caller, response := p }] ∧
      AnswersWith (decode o.req) t p := by
  obtain ⟨u, p, answering, after⟩ :=
    exists_step_of_busy (s := { s with ps := .busy o, port := rest }) running rfl
  exact ⟨_, u, p, step_of_idle_of_request running idle waiting, rfl, rfl, answering, after⟩

/-- Of its state, an answer depends on the stamp alone. -/
theorem answersWith_of_stamp_eq {i : Instr} {s s' : State} {p : Response} (same : s.stamp = s'.stamp)
    (answer : AnswersWith i s p) : AnswersWith i s' p :=
  answersWith_iff.2 (same ▸ answersWith_iff.1 answer)

/-- Settles O40: the first clause is which step ends Busy; in the second the offer changes nothing but the port, the
transaction in progress is answered, and then the request that waited is served. -/
theorem oneTransactionAtATime : Obligations.OneTransactionAtATime := by
  refine ⟨fun s t o => idle_and_mem_port_of_step_busy, fun s o c r running busy noneWaiting => ?_⟩
  obtain ⟨t1, offered, ps1, port1, rst1, delivered1, stamp1⟩ := offer_frame c r s
  rw [noneWaiting, List.nil_append] at port1
  obtain ⟨t2, p, answering, idle2, port2, running2, delivered2, answer⟩ :=
    exists_step_of_busy (rst1.trans running) (ps1.trans busy)
  obtain ⟨t3, t4, p', accepting, busy3, port3, answering', idle4, -, -, delivered4, answer'⟩ :=
    exists_steps_of_request running2 idle2 (port2.trans port1)
  rw [delivered1] at delivered2
  rw [delivered2, List.append_assoc] at delivered4
  exact ⟨t1, t2, t3, t4, p, p', offered, ps1.trans busy, port1, delivered1, answering, idle2, port2.trans port1,
    delivered2, accepting, busy3, port3, answering', idle4, delivered4, answersWith_of_stamp_eq stamp1 answer, answer'⟩

theorem run_succ_of_step {M : Host.Core} {s t : M.State} (stepped : M.step s = .next t) (k : Nat) :
    M.run (k + 1) s = M.run k t := by
  rw [Host.Core.run, stepped]

/-- Settles O43, by induction on the waiting requests: two steps serve the oldest, and the rest wait in an Idle block. -/
theorem servesRequestsInOrder : Obligations.ServesRequestsInOrder := by
  intro s idle running
  induction waiting : s.port generalizing s with
  | nil => exact ⟨s, [], rfl, idle, waiting, running, (List.append_nil _).symm, .nil⟩
  | cons o rest ih =>
    obtain ⟨t, u, p, accepting, -, -, answering, idle', port', running', delivered', answer⟩ :=
      exists_steps_of_request running idle waiting
    obtain ⟨v, ds, run, idle'', port'', running'', delivered'', answers⟩ := ih u idle' running' port'
    refine ⟨v, { caller := some o.caller, response := p } :: ds, ?_, idle'', port'', running'', ?_,
      .cons ⟨rfl, t, answer⟩ answers⟩
    · exact (run_succ_of_step accepting _).trans ((run_succ_of_step answering _).trans (port' ▸ run))
    · rw [delivered'', delivered', List.append_assoc, List.singleton_append]

/-- Settles O44: a reset, a transaction and a waiting request each leave less pending, and an Idle block without any is as
it was. -/
theorem everyStepProgresses : Obligations.EveryStepProgresses := by
  intro s
  obtain ⟨asserted, next⟩ | ⟨o, running, busy, next⟩ | ⟨o, rest, running, idle, waiting, next⟩ |
    ⟨running, idle, waiting, next⟩ := step_cases s
  · refine ⟨_, next, fun nothing => ?_, fun _ => ?_⟩
    · simp [pendingWork, asserted] at nothing
    · cases busy : s.ps <;> simp [pendingWork, asserted, busy]
  · refine ⟨_, next, fun nothing => ?_, fun _ => ?_⟩
    · simp [pendingWork, busy] at nothing
    · simp [pendingWork, running, busy]
  · refine ⟨_, next, fun nothing => ?_, fun _ => ?_⟩
    · simp [pendingWork, waiting] at nothing
    · simp [pendingWork, running, idle, waiting]
      omega
  · refine ⟨s, next, fun _ => rfl, fun work => ?_⟩
    simp [pendingWork, running, idle, waiting] at work

/-- Every step answers a next state: there is no fault and no refusal. -/
theorem exists_step (s : State) : ∃ t, step s = .next t := by
  obtain ⟨t, stepped, -⟩ := everyStepProgresses s
  exact ⟨t, stepped⟩

end Sys2Proof.Machine
end

section

/-! Several instances (60_exceptions.md R80). -/

namespace Sys2Proof.Machine

theorem stepInstance_of_step {sys : List State} {k : Nat} {s t : State} (here : sys[k]? = some s)
    (stepped : step s = .next t) : stepInstance k sys = .next (sys.set k t) := by
  simp [stepInstance, here, stepped]

/-- A system moves by the step of the state that stands at the index. -/
theorem stepInstance_eq_next_iff {sys sys' : List State} {k : Nat} :
    stepInstance k sys = .next sys' ↔
      ∃ s t, sys[k]? = some s ∧ step s = .next t ∧ sys' = sys.set k t := by
  constructor
  · intro moved
    cases here : sys[k]? with
    | none => simp [stepInstance, here] at moved
    | some s =>
      obtain ⟨t, stepped⟩ := exists_step s
      rw [stepInstance_of_step here stepped] at moved
      cases moved
      exact ⟨s, t, rfl, stepped, rfl⟩
  · rintro ⟨s, t, here, stepped, rfl⟩
    exact stepInstance_of_step here stepped

/-- Settles O51: a move sets its own index only, and settings of two different indexes commute. -/
theorem instancesIndependent : Obligations.InstancesIndependent := by
  refine ⟨fun sys sys' k moved => ?_, fun sys j k differ within within' => ?_⟩
  · obtain ⟨s, t, here, stepped, rfl⟩ := stepInstance_eq_next_iff.1 moved
    obtain ⟨within, -⟩ := List.getElem?_eq_some_iff.1 here
    exact ⟨⟨s, t, here, stepped, List.getElem?_set_self within⟩, fun j other => List.getElem?_set_ne other.symm⟩
  · obtain ⟨t, stepped⟩ := exists_step sys[j]
    obtain ⟨t', stepped'⟩ := exists_step sys[k]
    have here : sys[j]? = some sys[j] := List.getElem?_eq_getElem within
    have here' : sys[k]? = some sys[k] := List.getElem?_eq_getElem within'
    refine ⟨sys.set j t, sys.set k t', (sys.set j t).set k t', stepInstance_of_step here stepped, ?_,
      stepInstance_of_step here' stepped', ?_⟩
    · exact stepInstance_of_step ((List.getElem?_set_ne differ).trans here') stepped'
    · rw [List.set_comm t t' differ]
      exact stepInstance_of_step ((List.getElem?_set_ne differ.symm).trans here) stepped

end Sys2Proof.Machine
end

section

/-! The records that answers carry (30_encoding.md R32), and what a host may read of them (70_reset_and_hazards.md R87). -/

namespace Sys2Proof.Machine

/-- Only the scan records an element, and it stopped at that element because it is outside the alphabet. -/
theorem responseWf_of_answersWith {i : Instr} {s : State} {p : Response} (answer : AnswersWith i s p) :
    responseWf p = true := by
  obtain ⟨out, rfl⟩ | ⟨x, raised, rfl⟩ := answersWith_cases answer
  · rfl
  · cases raised with
    | forbiddenSymbol sized found =>
      obtain ⟨-, outside, -⟩ := firstBad_eq_some_iff.1 found
      simp [responseWf, errorResponse, exceptionStatus, exceptionSym, exceptionPos, outside]
    | symbolCount | byteCount | length | illegalCommand => rfl

/-- Settles O20: every command is one delivery of its answer. -/
theorem commandFrame : Obligations.CommandFrame := by
  intro i s t executed
  rw [exec_eq_deliver] at executed
  cases executed
  exact ⟨deliver_ps _ s, deliver_port _ s, deliver_rst _ s, _, deliver_delivered _ s, rfl,
    responseWf_of_answersWith (answersWith_iff.2 rfl)⟩

/-- Settles O24: of the exceptions VALIDATE meets only the scan's has this status, and the scan stops at the first element
outside the alphabet. -/
theorem forbiddenSymbolIsFirst : Obligations.ForbiddenSymbolIsFirst := by
  intro data s p answer forbidden
  obtain ⟨out, rfl⟩ | ⟨x, raised, rfl⟩ := answersWith_cases answer
  · cases forbidden
  · cases raised with
    | length => cases forbidden
    | forbiddenSymbol sized found =>
      obtain ⟨here, outside, before⟩ := firstBad_eq_some_iff.1 found
      exact ⟨_, _, rfl, rfl, here, outside, before, sized⟩

theorem readError_of_forbiddenSymbol {p : Response} {sym : Byte} {pos : Nat}
    (forbidden : p.status = .forbiddenSymbolError) (element : p.errSym = some sym) (index : p.errPos = some pos) :
    readError p = some (sym, pos) := by
  simp [readError, forbidden, element, index]

theorem readError_of_other {p : Response} (other : p.status ≠ .forbiddenSymbolError) : readError p = none :=
  if_neg other

theorem readOut_eq_some_iff {p : Response} : readOut p = some p.out ↔ p.status = .ok := by
  simp [readOut]

theorem readOut_eq_none_iff {p : Response} : readOut p = none ↔ p.status ≠ .ok := by
  simp [readOut]

/-- Settles O50: an answer holds the error fields under ForbiddenSymbolError and under no other status. -/
theorem hostReadsWhatIsPresent : Obligations.HostReadsWhatIsPresent := by
  intro i s p answer
  obtain ⟨-, absent, present⟩ := errorRecords i s p answer
  refine ⟨readOut_eq_some_iff.symm, readOut_eq_none_iff.symm, ?_⟩
  by_cases forbidden : p.status = .forbiddenSymbolError
  · obtain ⟨pos, sym, index, element, -⟩ := present forbidden
    have read := readError_of_forbiddenSymbol forbidden element index
    exact ⟨⟨fun _ => ⟨_, read⟩, fun _ => forbidden⟩, fun sym' pos' => by simp [read, index, element]⟩
  · obtain ⟨element, index⟩ := absent forbidden
    have unread := readError_of_other forbidden
    exact ⟨⟨fun h => absurd h forbidden, fun ⟨e, read⟩ => by simp [unread] at read⟩,
      fun sym' pos' => by simp [unread, element, index]⟩

theorem statusOfCode_statusCode (x : Status) : statusOfCode (statusCode x) = .ok x := by
  cases x <;> rfl

/-- Settles O22: each row of the table read back, and the two codes without a row. -/
theorem statusCodesReadBack : Obligations.StatusCodesReadBack :=
  ⟨statusOfCode_statusCode, rfl, rfl⟩

end Sys2Proof.Machine
end

section

/-! The host's side (70_reset_and_hazards.md R84, R87, 60_exceptions.md R80): offers, and which response a host takes. -/

namespace Sys2Proof.Machine

theorem offerFor_of_wfFor {maxLen : Option Nat} {r : Request} (legal : r.wfFor maxLen = true) (c : Caller)
    (s : State) :
    offerFor maxLen c r s = .next { s with port := s.port ++ [{ caller := c, req := r }] } := if_pos legal

/-- An offer that succeeds is of a legal request, which now waits last. -/
theorem offerFor_eq_next {maxLen : Option Nat} {c : Caller} {r : Request} {s t : State}
    (offered : offerFor maxLen c r s = .next t) :
    r.wfFor maxLen = true ∧ t = { s with port := s.port ++ [{ caller := c, req := r }] } := by
  obtain ⟨legal, queued⟩ | ⟨-, refused⟩ := offerFor_cases maxLen c r s
  · cases queued.symm.trans offered
    exact ⟨legal, rfl⟩
  · cases refused.symm.trans offered

theorem wfFor_some_iff {n : Nat} {r : Request} : r.wfFor (some n) = true ↔ r.data.length ≤ n := by
  simp [Request.wfFor, withinMaxLen]

/-- Settles O48: the two outcomes of an offer, told apart by the length; unbounded, every request is legal. -/
theorem offerWithinMaxLen : Obligations.OfferWithinMaxLen := by
  refine ⟨fun n c r s short => offerFor_of_wfFor (wfFor_some_iff.2 short) c s, fun n c r s long => ?_,
    fun c r s => offerFor_of_wfFor rfl c s⟩
  exact if_neg (mt wfFor_some_iff.1 (Nat.not_le.2 long))

theorem offerFrame_of_readRequest {maxLen : Option Nat} {wire : WireFormat maxLen} {frame : List Bool} {r : Request}
    (read : wire.readRequest frame = some r) (c : Caller) (s : State) :
    offerFrame wire c frame s = offerFor maxLen c r s := by
  simp [offerFrame, read]

theorem offerFrame_of_unread {maxLen : Option Nat} {wire : WireFormat maxLen} {frame : List Bool}
    (unread : wire.readRequest frame = none) (c : Caller) (s : State) :
    offerFrame wire c frame s = .refused .badFrame := by
  simp [offerFrame, unread]

/-- A framed offer that succeeds is the offer of the request the frame reads as. -/
theorem offerFrame_eq_next {maxLen : Option Nat} {wire : WireFormat maxLen} {c : Caller} {frame : List Bool}
    {s t : State} (offered : offerFrame wire c frame s = .next t) : ∃ r, offerFor maxLen c r s = .next t := by
  cases read : wire.readRequest frame with
  | none => cases (offerFrame_of_unread read c s).symm.trans offered
  | some r => exact ⟨r, (offerFrame_of_readRequest read c s).symm.trans offered⟩

/-- Settles O49: the two things a framed offer does with a frame, what the wire format promises of a request and of a
response, and that taking a frame is taking a record. -/
theorem framesCarryRequests : Obligations.FramesCarryRequests := by
  refine fun maxLen wire c s => ⟨fun frame r read => offerFrame_of_readRequest read c s, fun r legal => ?_,
    fun frame unread => offerFrame_of_unread unread c s, fun host d t taken => ?_⟩
  · rw [offerFrame_of_readRequest (wire.request_back r legal), offerFor_of_wfFor legal]
  · exact ⟨wire.writeResponse d.response, by simp [takeFrame, taken], wire.response_back d.response⟩

theorem isFor_iff {host : Nat} {d : Delivery} :
    isFor host d = true ↔ ∃ c, d.caller = some c ∧ c.host = host := by
  cases label : d.caller <;> simp [isFor, label]

theorem isFor_eq_false_iff {host : Nat} {d : Delivery} :
    isFor host d = false ↔ ∀ c, d.caller = some c → c.host ≠ host := by
  simp [← Bool.not_eq_true, isFor_iff]

/-- Taking a response takes one delivery out of its place, and nothing else moves. -/
theorem takeResponse_eq_some {host : Nat} {s t : State} {d : Delivery}
    (taken : takeResponse host s = some (d, t)) :
    ∃ before after, s.delivered = before ++ d :: after ∧ t = { s with delivered := before ++ after } ∧
      isFor host d = true ∧ ∀ e ∈ before, isFor host e = false := by
  obtain ⟨⟨_, rest⟩, found, same⟩ := Option.map_eq_some_iff.1 taken
  cases same
  obtain ⟨before, after, split, rfl, own, others⟩ := takeFor_eq_some found
  exact ⟨before, after, split, rfl, own, others⟩

theorem takeResponse_eq_none_iff {host : Nat} {s : State} :
    takeResponse host s = none ↔ ∀ e ∈ s.delivered, isFor host e = false := by
  rw [takeResponse, Option.map_eq_none_iff, takeFor_eq_none_iff]

/-- Settles O53: a delivery is for a host when its label names that host, and the first such one is taken. -/
theorem hostTakesOnlyItsOwn : Obligations.HostTakesOnlyItsOwn := by
  refine ⟨fun host s d t taken => ?_, fun host s => ?_⟩
  · obtain ⟨before, after, split, rfl, own, others⟩ := takeResponse_eq_some taken
    obtain ⟨c, label, same⟩ := isFor_iff.1 own
    exact ⟨c, before, after, label, same, split, rfl, fun e earlier => isFor_eq_false_iff.1 (others e earlier)⟩
  · simp only [takeResponse_eq_none_iff, isFor_eq_false_iff]

end Sys2Proof.Machine
end

section

/-! The invariant of one block and that of its link (30_encoding.md R32, R34): both say that the requests held are within
`MAX_LEN` and that every delivery is good, each in its own sense of good, and they are kept for the same reason. -/

namespace Sys2Proof.Machine

/-- The requests held are within `MAX_LEN`, and every delivery has the given property. -/
def HoldsAndDelivers (maxLen : Option Nat) (good : Delivery → Prop) (s : State) : Prop :=
  (∀ r ∈ heldRequests s, r.wfFor maxLen = true) ∧ ∀ d ∈ s.delivered, good d

theorem inv_iff {maxLen : Option Nat} {s : State} :
    inv maxLen s = true ↔ HoldsAndDelivers maxLen (fun d => deliveryWf d = true) s := by
  simp [inv, HoldsAndDelivers]

theorem linkInv_iff {maxLen : Option Nat} {s : State} :
    linkInv maxLen s ↔ HoldsAndDelivers maxLen (fun d => Answerable maxLen d.response) s := by
  simp [linkInv, HoldsAndDelivers]

/-- The property holds of what a held request of legal length can be answered with. -/
def GoodWhenAnswered (maxLen : Option Nat) (good : Delivery → Prop) : Prop :=
  ∀ (s : State) (o : Offer) (p : Response), o.req.wfFor maxLen = true → AnswersWith (decode o.req) s p →
    good { caller := some o.caller, response := p }

theorem deliveryWf_goodWhenAnswered (maxLen : Option Nat) :
    GoodWhenAnswered maxLen fun d => deliveryWf d = true :=
  fun _ _ _ _ answer => responseWf_of_answersWith answer

@[simp] theorem data_decode (r : Request) : (decode r).data = r.data := by
  unfold decode
  split <;> rfl

theorem answerable_of_answersWith {maxLen : Option Nat} {i : Instr} {s : State} {p : Response}
    (legal : i.wfFor maxLen = true) (answer : AnswersWith i s p) : Answerable maxLen p := by
  obtain ⟨t, executed, -, delivered, -, -⟩ := answer
  exact ⟨i, s, t, _, legal, executed, delivered, rfl⟩

theorem answerable_goodWhenAnswered (maxLen : Option Nat) :
    GoodWhenAnswered maxLen fun d => Answerable maxLen d.response :=
  fun _ o _ legal answer =>
    answerable_of_answersWith (by rwa [Instr.wfFor, data_decode]) answer

theorem heldRequests_of_idle {s : State} (idle : s.ps = .idle) : heldRequests s = s.port.map Offer.req := by
  simp [heldRequests, idle]

theorem heldRequests_of_busy {s : State} {o : Offer} (busy : s.ps = .busy o) :
    heldRequests s = o.req :: s.port.map Offer.req := by
  simp [heldRequests, busy]

theorem mem_heldRequests_of_mem_port {s : State} {o : Offer} (waiting : o ∈ s.port) : o.req ∈ heldRequests s := by
  cases state : s.ps with
  | idle => exact heldRequests_of_idle state ▸ List.mem_map_of_mem waiting
  | busy o' => exact heldRequests_of_busy state ▸ List.mem_cons_of_mem _ (List.mem_map_of_mem waiting)

/-- No step makes a request up. -/
theorem heldRequests_subset_of_step {s t : State} (stepped : step s = .next t) :
    heldRequests t ⊆ heldRequests s := by
  have waiting : s.port.map Offer.req ⊆ heldRequests s := by
    intro r mem
    obtain ⟨o, offered, rfl⟩ := List.mem_map.1 mem
    exact mem_heldRequests_of_mem_port offered
  obtain ⟨-, next⟩ | ⟨o, -, -, next⟩ | ⟨o, rest, -, idle, port, next⟩ | ⟨-, -, -, next⟩ := step_cases s <;>
    cases next.symm.trans stepped
  · exact waiting
  · exact waiting
  · rw [heldRequests_of_idle idle, port]
    exact List.Subset.refl _
  · exact List.Subset.refl _

section

variable {maxLen : Option Nat} {good : Delivery → Prop} {s t : State}

theorem step_keeps_holdsAndDelivers (answered : GoodWhenAnswered maxLen good)
    (before : HoldsAndDelivers maxLen good s) (stepped : step s = .next t) : HoldsAndDelivers maxLen good t := by
  obtain ⟨held, delivered⟩ := before
  refine ⟨fun r mem => held r (heldRequests_subset_of_step stepped mem), ?_⟩
  obtain same | ⟨o, p, -, busy, answer, added⟩ := responseGoesToItsCaller s t stepped
  · rwa [same]
  · have legal : o.req.wfFor maxLen = true := held o.req (by simp [heldRequests_of_busy busy])
    rw [added]
    exact List.forall_mem_append.2 ⟨delivered, List.forall_mem_singleton.2 (answered s o p legal answer)⟩

theorem heldRequests_offered (s : State) (o : Offer) :
    heldRequests { s with port := s.port ++ [o] } = heldRequests s ++ [o.req] := by
  cases state : s.ps <;> simp [heldRequests, state]

theorem offerFor_keeps_holdsAndDelivers (before : HoldsAndDelivers maxLen good s) {c : Caller} {r : Request}
    (offered : offerFor maxLen c r s = .next t) : HoldsAndDelivers maxLen good t := by
  obtain ⟨legal, rfl⟩ := offerFor_eq_next offered
  obtain ⟨held, delivered⟩ := before
  refine ⟨?_, delivered⟩
  rw [heldRequests_offered]
  exact List.forall_mem_append.2 ⟨held, List.forall_mem_singleton.2 legal⟩

theorem offerFrame_keeps_holdsAndDelivers (before : HoldsAndDelivers maxLen good s) {wire : WireFormat maxLen}
    {c : Caller} {frame : List Bool} (offered : offerFrame wire c frame s = .next t) :
    HoldsAndDelivers maxLen good t := by
  obtain ⟨r, offered⟩ := offerFrame_eq_next offered
  exact offerFor_keeps_holdsAndDelivers before offered

/-- Neither invariant looks at the reset input. -/
theorem assertReset_keeps_holdsAndDelivers (before : HoldsAndDelivers maxLen good s) :
    HoldsAndDelivers maxLen good (assertReset s) := before

/-- The delivery taken was good, and those left are among those there were. -/
theorem takeResponse_keeps_holdsAndDelivers (before : HoldsAndDelivers maxLen good s) {host : Nat} {d : Delivery}
    (taken : takeResponse host s = some (d, t)) : HoldsAndDelivers maxLen good t ∧ good d := by
  obtain ⟨earlier, later, split, rfl, -, -⟩ := takeResponse_eq_some taken
  obtain ⟨held, delivered⟩ := before
  simp only [split, List.forall_mem_append, List.forall_mem_cons] at delivered
  obtain ⟨goodEarlier, goodTaken, goodLater⟩ := delivered
  exact ⟨⟨held, List.forall_mem_append.2 ⟨goodEarlier, goodLater⟩⟩, goodTaken⟩

theorem holdsAndDelivers_reset : HoldsAndDelivers maxLen good State.reset :=
  ⟨nofun, nofun⟩

end

/-- Settles O45: a step makes no request up, and what it delivers is an answer, whose record is legal. -/
theorem stepKeepsInvariant : Obligations.StepKeepsInvariant := fun maxLen _ _ before stepped =>
  inv_iff.2 (step_keeps_holdsAndDelivers (deliveryWf_goodWhenAnswered maxLen) (inv_iff.1 before) stepped)

/-- Settles O46: the reset state holds no request and has delivered nothing. -/
theorem resetHasInvariant : Obligations.ResetHasInvariant := fun _ => inv_iff.2 holdsAndDelivers_reset

/-- Settles O47: an offer that succeeds adds a legal request, and taking a response only takes away. -/
theorem hostActionsKeepInvariant : Obligations.HostActionsKeepInvariant := by
  intro maxLen s before
  replace before := inv_iff.1 before
  refine ⟨fun c r t offered => inv_iff.2 (offerFor_keeps_holdsAndDelivers before offered),
    fun wire c frame t offered => inv_iff.2 (offerFrame_keeps_holdsAndDelivers before offered),
    inv_iff.2 (assertReset_keeps_holdsAndDelivers before), fun host d t taken => ?_⟩
  obtain ⟨after, legal⟩ := takeResponse_keeps_holdsAndDelivers before taken
  obtain ⟨-, record⟩ := Bool.and_eq_true_iff.1 legal
  exact ⟨inv_iff.2 after, record⟩

/-- Settles O56: as for the invariant of one block, with an answer to a command within `MAX_LEN` in the place of a legal
record. -/
theorem linkInvariantKept : Obligations.LinkInvariantKept := by
  refine fun maxLen => ⟨linkInv_iff.2 holdsAndDelivers_reset, fun s before => ?_⟩
  replace before := linkInv_iff.1 before
  refine ⟨fun t stepped => linkInv_iff.2
      (step_keeps_holdsAndDelivers (answerable_goodWhenAnswered maxLen) before stepped),
    fun c r t offered => linkInv_iff.2 (offerFor_keeps_holdsAndDelivers before offered),
    fun wire c frame t offered => linkInv_iff.2 (offerFrame_keeps_holdsAndDelivers before offered),
    linkInv_iff.2 (assertReset_keeps_holdsAndDelivers before), fun host d t taken => ?_⟩
  obtain ⟨after, answerable⟩ := takeResponse_keeps_holdsAndDelivers before taken
  exact ⟨linkInv_iff.2 after, answerable⟩

end Sys2Proof.Machine
end

section

/-! What the two loops of the codec say of operands: injectivity (41_codec.md R58), concatenation (R56), and the Symbols
that UNPACK yields (R57). -/

namespace Sys2Proof.Machine

/-- PACK answers OK on whole groups only, with the output of its loop. -/
theorem pack_answersWith_ok_iff {data out : List Byte} {s : State} :
    AnswersWith (.pack data) s (okResponse out) ↔ data.length % 4 = 0 ∧ out = packBytes s.stamp 0 data := by
  constructor
  · intro answer
    by_cases whole : data.length % 4 = 0
    · exact ⟨whole, congrArg Response.out (answersWith_functional answer (pack_answersWith_ok whole s))⟩
    · cases answersWith_functional answer (pack_answersWith_error whole s)
  · rintro ⟨whole, rfl⟩
    exact pack_answersWith_ok whole s

/-- UNPACK answers OK on whole groups only, with the output of its loop. -/
theorem unpack_answersWith_ok_iff {data out : List Byte} {s : State} :
    AnswersWith (.unpack data) s (okResponse out) ↔ data.length % 3 = 0 ∧ out = unpackSyms data := by
  constructor
  · intro answer
    by_cases whole : data.length % 3 = 0
    · exact ⟨whole, congrArg Response.out (answersWith_functional answer (unpack_answersWith_ok whole s))⟩
    · cases answersWith_functional answer (unpack_answersWith_error whole s)
  · rintro ⟨whole, rfl⟩
    exact unpack_answersWith_ok whole s

/-- Settles O34: each loop has the other as its inverse, so it is injective, and what packs to `b` is what `b` unpacks to. -/
theorem codecInjective : Obligations.CodecInjective := by
  refine ⟨fun x y s s' p wholeX wholeY symbolsX symbolsY answerX answerY => ?_,
    fun x y s s' p wholeX wholeY answerX answerY => ?_, fun b whole => ?_⟩
  · cases answersWith_functional answerX (pack_answersWith_ok wholeX s)
    obtain ⟨-, same⟩ := pack_answersWith_ok_iff.1 answerY
    rw [← unpackSyms_packBytes wholeX symbolsX s.stamp 0, same, unpackSyms_packBytes wholeY symbolsY]
  · cases answersWith_functional answerX (unpack_answersWith_ok wholeX s)
    obtain ⟨-, same⟩ := unpack_answersWith_ok_iff.1 answerY
    rw [← packBytes_unpackSyms wholeX 0 0, same, packBytes_unpackSyms wholeY]
  · refine ⟨unpackSyms b, ⟨allSymbols_unpackSyms whole, fun s => pack_answersWith_ok_iff.2 ⟨?_, ?_⟩⟩, ?_⟩
    · simp [unpackSyms_length_of_whole whole]
    · rw [packBytes_unpackSyms whole]
    · rintro x ⟨symbols, answers⟩
      obtain ⟨wholeX, rfl⟩ := pack_answersWith_ok_iff.1 (answers State.reset)
      rw [unpackSyms_packBytes wholeX symbols]

/-- After whole groups the loop goes on with the number it has reached. -/
theorem packBytes_append {x : List Byte} (whole : x.length % 4 = 0) (y : List Byte) (stamp g : Nat) :
    packBytes stamp g (x ++ y) = packBytes stamp g x ++ packBytes stamp (g + x.length / 4) y := by
  induction x, whole using groups4_induction generalizing g with
  | nil => rfl
  | group c0 c1 c2 c3 rest _ ih =>
    have number : g + (c0 :: c1 :: c2 :: c3 :: rest).length / 4 = g + 1 + rest.length / 4 := by
      simp only [List.length_cons]
      omega
    rw [number]
    simp [ih]

theorem unpackSyms_append {x : List Byte} (whole : x.length % 3 = 0) (y : List Byte) :
    unpackSyms (x ++ y) = unpackSyms x ++ unpackSyms y := by
  induction x, whole using groups3_induction with
  | nil => rfl
  | group b0 b1 b2 rest _ ih => simp [ih]

theorem length_append_mod_eq_zero {x y : List Byte} {n : Nat} (wholeX : x.length % n = 0)
    (wholeY : y.length % n = 0) : (x ++ y).length % n = 0 := by
  simp [Nat.add_mod, wholeX, wholeY]

/-- Settles O35: the loops concatenate at group boundaries, and on Symbols PACK does not look at the number of a group. -/
theorem codecConcatenates : Obligations.CodecConcatenates := by
  refine ⟨fun x y s o o' wholeX _ symbolsY answerX answerY => ?_, fun x y s o o' wholeX answerX answerY => ?_⟩
  · obtain ⟨-, rfl⟩ := pack_answersWith_ok_iff.1 answerX
    obtain ⟨wholeY, rfl⟩ := pack_answersWith_ok_iff.1 answerY
    refine pack_answersWith_ok_iff.2 ⟨length_append_mod_eq_zero wholeX wholeY, ?_⟩
    rw [packBytes_append wholeX, packBytes_eq_of_symbols wholeY symbolsY s.stamp 0 s.stamp (0 + x.length / 4)]
  · obtain ⟨-, rfl⟩ := unpack_answersWith_ok_iff.1 answerX
    obtain ⟨wholeY, rfl⟩ := unpack_answersWith_ok_iff.1 answerY
    exact unpack_answersWith_ok_iff.2
      ⟨length_append_mod_eq_zero wholeX wholeY, (unpackSyms_append wholeX y).symm⟩

/-- On Symbols the only check of VALIDATE that can fail is that of the length. -/
theorem validate_status_of_symbols {data : List Byte} {s : State} {p : Response} (symbols : allSymbols data = true)
    (answer : AnswersWith (.validate data) s p) :
    p.status = if lenOk data.length then .ok else .lengthError := by
  cases sized : lenOk data.length with
  | true =>
    rw [answersWith_functional answer (validate_answersWith_ok sized symbols s)]
    rfl
  | false =>
    rw [answersWith_functional answer (validate_answersWith_length sized s)]
    rfl

/-- Settles O36: four Symbols for each three bytes, so the length check asks for four groups. -/
theorem unpackYieldsSymbols : Obligations.UnpackYieldsSymbols := by
  intro b s s' p q whole unpacked validated
  cases answersWith_functional unpacked (unpack_answersWith_ok whole s)
  have symbols : allSymbols (unpackSyms b) = true := allSymbols_unpackSyms whole
  have sized : lenOk (unpackSyms b).length = true ↔ 12 ≤ b.length := by
    rw [lenOk_iff, unpackSyms_length_of_whole whole]
    omega
  have status := validate_status_of_symbols symbols validated
  refine ⟨symbols, ?_⟩
  rw [status, ← Nat.not_le, ← sized]
  cases lenOk (unpackSyms b).length <;> simp

end Sys2Proof.Machine
end

section

/-! The loops one group at a time (41_codec.md R56, 10_state.md R16). PACK's and UNPACK's differ in the size of a group and
in what they write for it; what makes each of them keep its invariant is the same. -/

namespace Sys2Proof.Machine

/-- A turn of a loop over groups of `size` elements of `data`, of which `output` is the whole output: while a group is left
the turn brings the output up to the next group, and when none is left it does nothing. -/
structure LockStep (size : Nat) (data : List Byte) (output : List Byte → List Byte)
    (turn : Progress → Progress) : Prop where
  output_nil : output [] = []
  advance : ∀ p : Progress, size * p.group + size ≤ data.length →
    p.out = output (memRead data 0 (size * p.group)) →
    turn p = { group := p.group + 1, out := output (memRead data 0 (size * (p.group + 1))) }
  stand : ∀ p : Progress, data.length < size * p.group + size → turn p = p

namespace LockStep

variable {size : Nat} {data : List Byte} {output : List Byte → List Byte} {turn : Progress → Progress}

theorem start_keeps (lockStep : LockStep size data output turn) :
    progressStart.out = output (memRead data 0 (size * progressStart.group)) ∧
      size * progressStart.group ≤ data.length :=
  ⟨lockStep.output_nil.symm, Nat.zero_le _⟩

theorem turn_keeps (lockStep : LockStep size data output turn) (p : Progress)
    (within : size * p.group ≤ data.length) (soFar : p.out = output (memRead data 0 (size * p.group))) :
    size * (turn p).group ≤ data.length ∧ (turn p).out = output (memRead data 0 (size * (turn p).group)) ∧
      (size * p.group + size ≤ data.length → (turn p).group = p.group + 1) ∧
      (data.length < size * p.group + size → turn p = p) := by
  by_cases left : size * p.group + size ≤ data.length
  · rw [lockStep.advance p left soFar]
    exact ⟨left, rfl, fun _ => rfl, fun past => absurd left (Nat.not_le.2 past)⟩
  · rw [lockStep.stand p (Nat.not_le.1 left)]
    exact ⟨within, soFar, fun more => absurd more left, fun _ => rfl⟩

theorem iterate_start (lockStep : LockStep size data output turn) (n : Nat) (within : size * n ≤ data.length) :
    turn^[n] progressStart = { group := n, out := output (memRead data 0 (size * n)) } := by
  induction n with
  | zero => rw [Nat.mul_zero, memRead, List.take_zero, lockStep.output_nil]; rfl
  | succ n ih =>
    rw [Function.iterate_succ_apply', ih (le_trans (Nat.mul_le_mul_left size n.le_succ) within)]
    exact lockStep.advance _ within rfl

end LockStep

theorem memRead_length (seq : List Byte) (i n : Nat) : (memRead seq i n).length = min n (seq.length - i) := by
  simp [memRead]

theorem memRead_length_of_le {seq : List Byte} {i n : Nat} (within : i + n ≤ seq.length) :
    (memRead seq i n).length = n := by
  rw [memRead_length]
  omega

theorem memRead_length_lt {seq : List Byte} {i n : Nat} (past : seq.length < i + n) (positive : 0 < n) :
    (memRead seq i n).length < n := by
  rw [memRead_length]
  omega

/-- What is read from the start is read in two parts. -/
theorem memRead_zero_add (seq : List Byte) (i n : Nat) :
    memRead seq 0 (i + n) = memRead seq 0 i ++ memRead seq i n := List.take_add

theorem memRead_zero_length (seq : List Byte) : memRead seq 0 seq.length = seq := List.take_length

theorem memWrite_length (out v : List Byte) : memWrite out out.length v = out ++ v := by
  rw [memWrite, List.take_length]

theorem packTurn_lockStep (stamp : Nat) (data : List Byte) :
    LockStep 4 data (packBytes stamp 0) (packTurn stamp data) where
  output_nil := rfl
  advance p left soFar := by
    have before : (memRead data 0 (4 * p.group)).length = 4 * p.group := memRead_length_of_le (by omega)
    have written : p.out.length = 3 * p.group := by rw [soFar, packBytes_length stamp p.group 0 _ before]
    obtain ⟨c0, c1, c2, c3, rest, read, restNil⟩ :=
      exists_group4 (n := 0) (memRead_length_of_le (i := 4 * p.group) (n := 4) left)
    rw [List.length_eq_zero_iff.1 restNil] at read
    have next : packBytes stamp 0 (memRead data 0 (4 * (p.group + 1))) =
        p.out ++ packGroup stamp p.group c0 c1 c2 c3 := by
      rw [Nat.mul_succ, memRead_zero_add, packBytes_append (by rw [before]; omega), before, ← soFar, read]
      simp
    simp only [packTurn, read, next, ← written, memWrite_length]
  stand p past := by
    have short : (memRead data (4 * p.group) 4).length < 4 := memRead_length_lt past (by decide)
    unfold packTurn
    split
    · next read => simp [read] at short
    · rfl

theorem unpackTurn_lockStep (data : List Byte) : LockStep 3 data unpackSyms (unpackTurn data) where
  output_nil := rfl
  advance p left soFar := by
    have before : (memRead data 0 (3 * p.group)).length = 3 * p.group := memRead_length_of_le (by omega)
    have written : p.out.length = 4 * p.group := by rw [soFar, unpackSyms_length p.group _ before]
    obtain ⟨b0, b1, b2, rest, read, restNil⟩ :=
      exists_group3 (n := 0) (memRead_length_of_le (i := 3 * p.group) (n := 3) left)
    rw [List.length_eq_zero_iff.1 restNil] at read
    have next : unpackSyms (memRead data 0 (3 * (p.group + 1))) = p.out ++ unpack3 b0 b1 b2 := by
      rw [Nat.mul_succ, memRead_zero_add, unpackSyms_append (by rw [before]; omega), ← soFar, read]
      simp
    simp only [unpackTurn, read, next, ← written, memWrite_length]
  stand p past := by
    have short : (memRead data (3 * p.group) 3).length < 3 := memRead_length_lt past (by decide)
    unfold unpackTurn
    split
    · next read => simp [read] at short
    · rfl

theorem scanTurn_of_found {data : List Byte} {q : Scan} {bad : Nat × Byte} (found : q.found = some bad) :
    scanTurn data q = q := by
  simp [scanTurn, found]

theorem scanTurn_of_end {data : List Byte} {q : Scan} (past : data.length ≤ q.index) : scanTurn data q = q := by
  cases found : q.found <;> simp [scanTurn, found, memRead_of_length_le past]

theorem memRead_one {seq : List Byte} {i : Nat} (within : i < seq.length) : memRead seq i 1 = [seq[i]] := by
  rw [memRead, List.drop_eq_getElem_cons within]
  rfl

theorem scanTurn_of_symbol {data : List Byte} {q : Scan} (searching : q.found = none) (within : q.index < data.length)
    (inside : inAlpha data[q.index] = true) : scanTurn data q = { q with index := q.index + 1 } := by
  simp [scanTurn, searching, memRead_one within, inside]

theorem scanTurn_of_outside {data : List Byte} {q : Scan} (searching : q.found = none) (within : q.index < data.length)
    (outside : inAlpha data[q.index] = false) :
    scanTurn data q = { q with found := some (q.index, data[q.index]) } := by
  simp [scanTurn, searching, memRead_one within, outside]

theorem scanInv_of_searching {data : List Byte} {q : Scan} (searching : q.found = none) :
    scanInv data q ↔ q.index ≤ data.length ∧ allSymbols (data.take q.index) = true := by
  rw [scanInv, searching]

theorem scanInv_of_found {data : List Byte} {q : Scan} {bad : Nat × Byte} (found : q.found = some bad) :
    scanInv data q ↔ q.index < data.length ∧ firstBad data = some bad := by
  rw [scanInv, found]

theorem allSymbols_take_succ {data : List Byte} {i : Nat} (within : i < data.length)
    (seen : allSymbols (data.take i) = true) (inside : inAlpha data[i] = true) :
    allSymbols (data.take (i + 1)) = true := by
  rw [← List.take_append_getElem within, allSymbols_append, seen, allSymbols_cons, inside, allSymbols_nil]
  rfl

theorem scanTurn_keeps_scanInv {data : List Byte} {q : Scan} (before : scanInv data q) :
    scanInv data (scanTurn data q) := by
  cases searching : q.found with
  | some bad => rwa [scanTurn_of_found searching]
  | none =>
    obtain ⟨-, seen⟩ := (scanInv_of_searching searching).1 before
    by_cases within : q.index < data.length
    · cases inside : inAlpha data[q.index] with
      | true =>
        rw [scanTurn_of_symbol searching within inside]
        exact (scanInv_of_searching (q := { q with index := q.index + 1 }) searching).2
          ⟨within, allSymbols_take_succ within seen inside⟩
      | false =>
        rw [scanTurn_of_outside searching within inside]
        exact (scanInv_of_found rfl).2 ⟨within, firstBad_eq_some_iff.2 ⟨List.getElem?_eq_getElem within, inside, seen⟩⟩
    · rwa [scanTurn_of_end (Nat.not_lt.1 within)]

/-- At the end of the operand a scan has seen every element, and what it has not found is not there. -/
theorem found_eq_firstBad_of_end {data : List Byte} {q : Scan} (holds : scanInv data q)
    (atEnd : q.found = none → q.index = data.length) : q.found = firstBad data := by
  cases searching : q.found with
  | some bad =>
    obtain ⟨-, first⟩ := (scanInv_of_found searching).1 holds
    exact first.symm
  | none =>
    obtain ⟨-, seen⟩ := (scanInv_of_searching searching).1 holds
    rw [atEnd searching, List.take_length] at seen
    exact ((firstBad_eq_none_iff data).2 seen).symm

/-- Within the operand, a turn after which a scan is still searching has moved it one element on. -/
theorem scanTurn_index_of_searching {data : List Byte} {q : Scan} (within : q.index < data.length)
    (searching : (scanTurn data q).found = none) : (scanTurn data q).index = q.index + 1 := by
  cases found : q.found with
  | some bad => simp [scanTurn_of_found found, found] at searching
  | none =>
    cases inside : inAlpha data[q.index] with
    | true => rw [scanTurn_of_symbol found within inside]
    | false => simp [scanTurn_of_outside found within inside] at searching

theorem searching_of_scanTurn_searching {data : List Byte} {q : Scan} (searching : (scanTurn data q).found = none) :
    q.found = none := by
  by_contra found
  obtain ⟨bad, found⟩ := Option.ne_none_iff_exists'.1 found
  simp [scanTurn_of_found found, found] at searching

theorem scanInv_scanStart (data : List Byte) : scanInv data scanStart :=
  (scanInv_of_searching rfl).2 ⟨Nat.zero_le _, rfl⟩

theorem scanInv_iterate (data : List Byte) (n : Nat) : scanInv data ((scanTurn data)^[n] scanStart) := by
  induction n with
  | zero => exact scanInv_scanStart data
  | succ n ih =>
    rw [Function.iterate_succ_apply']
    exact scanTurn_keeps_scanInv ih

theorem index_iterate_of_searching {data : List Byte} {n : Nat} (within : n ≤ data.length)
    (searching : ((scanTurn data)^[n] scanStart).found = none) : ((scanTurn data)^[n] scanStart).index = n := by
  induction n with
  | zero => rfl
  | succ n ih =>
    rw [Function.iterate_succ_apply'] at searching ⊢
    have index := ih (Nat.le_of_succ_le within) (searching_of_scanTurn_searching searching)
    rw [scanTurn_index_of_searching (index.trans_lt within) searching, index]

/-- Settles O55: the codec's loops keep their invariant as loops over groups do, and a turn of the scan stops at an element
outside the alphabet that has Symbols only before it, moves past a Symbol, or stands still. -/
theorem loopTurnsKeepInvariant : Obligations.LoopTurnsKeepInvariant := by
  refine ⟨fun stamp data => ?_, fun data => ?_,
    fun data => ⟨scanInv_scanStart data, fun q holds => ⟨scanTurn_keeps_scanInv holds, fun atEnd => ?_⟩⟩⟩
  · have lockStep := packTurn_lockStep stamp data
    obtain ⟨empty, within⟩ := lockStep.start_keeps
    exact ⟨empty, within, lockStep.turn_keeps⟩
  · have lockStep := unpackTurn_lockStep data
    obtain ⟨empty, within⟩ := lockStep.start_keeps
    exact ⟨empty, within, lockStep.turn_keeps⟩
  · exact ⟨found_eq_firstBad_of_end holds fun _ => atEnd, scanTurn_of_end atEnd.ge⟩

/-- After all groups the output so far is the whole. -/
theorem LockStep.iterate_all {size : Nat} {data : List Byte} {output : List Byte → List Byte}
    {turn : Progress → Progress} (lockStep : LockStep size data output turn) (whole : data.length % size = 0) :
    (turn^[data.length / size] progressStart).out = output data := by
  have all : size * (data.length / size) = data.length := Nat.mul_div_cancel' (Nat.dvd_of_mod_eq_zero whole)
  rw [lockStep.iterate_start _ all.le, all, memRead_zero_length]

/-- Settles O37: each loop run from its start, and what its invariant says after all its turns. -/
theorem lockstepRefinesCommands : Obligations.LockstepRefinesCommands := by
  refine ⟨fun data stamp n within => ?_, fun data s whole => ?_, fun data n within => ?_, fun data s whole => ?_,
    fun data => ?_⟩
  · have run := (packTurn_lockStep stamp data).iterate_start n within
    rw [run]
    exact ⟨rfl, packBytes_length stamp n 0 _ (memRead_length_of_le (by omega))⟩
  · exact pack_answersWith_ok_iff.2 ⟨whole, (packTurn_lockStep s.stamp data).iterate_all whole⟩
  · have run := (unpackTurn_lockStep data).iterate_start n within
    rw [run]
    exact ⟨rfl, unpackSyms_length n _ (memRead_length_of_le (by omega))⟩
  · exact unpack_answersWith_ok_iff.2 ⟨whole, (unpackTurn_lockStep data).iterate_all whole⟩
  · exact found_eq_firstBad_of_end (scanInv_iterate data data.length) (index_iterate_of_searching le_rfl)

end Sys2Proof.Machine
end

section

/-! Equivalent forms of the symbol map and of the group primitives (40_symbol_map.md R42, R46, 41_codec.md section 1), and
the lanes a packed byte depends on (R56). -/

namespace Sys2Proof.Machine

theorem lt_iff_lt_of_s2v {c d : Byte} {v w : Val} (valueC : s2v c = some v) (valueD : s2v d = some w) :
    c < d ↔ v < w := by
  rw [← v2s_of_s2v valueC, ← v2s_of_s2v valueD, BitVec.lt_def, BitVec.lt_def, v2s_toNat, v2s_toNat]
  omega

/-- Settles O8: `V2S` neither wraps nor leaves the alphabet, and as it adds a constant it keeps the order of values. -/
theorem symbolMapBijection : Obligations.SymbolMapBijection :=
  ⟨fun v => ⟨v2s_toNat v, inAlpha_v2s v, s2v_v2s v⟩, fun _ _ => v2s_of_s2v, fun _ _ _ _ => lt_iff_lt_of_s2v⟩

/-- An element below the alphabet wraps to a difference of 224 or more, one above it is 64 or more away. -/
theorem inAlpha_iff_sub_toNat_le {c : Byte} : inAlpha c = true ↔ (c - 0x20).toNat ≤ 63 := by
  rw [inAlpha_iff, BitVec.toNat_sub]
  have bound : c.toNat < 256 := c.isLt
  have low : (0x20 : Byte).toNat = 32 := rfl
  omega

theorem toNat_le_63_iff_high_bits_clear (x : Byte) :
    x.toNat ≤ 63 ↔ x.getLsbD 7 = false ∧ x.getLsbD 6 = false := by
  have bound : x.toNat < 256 := x.isLt
  simp only [BitVec.getLsbD, Nat.testBit_eq_decide_div_mod_eq, decide_eq_false_iff_not]
  omega

/-- Settles O9: the wrapped difference is at most 63 inside the alphabet only, which its two high bits show. -/
theorem alphabetOneComparison : Obligations.AlphabetOneComparison := fun c =>
  ⟨inAlpha_iff_sub_toNat_le, inAlpha_iff_sub_toNat_le.trans (toNat_le_63_iff_high_bits_clear (c - 0x20))⟩

/-- A mask of low ones is a remainder. -/
theorem and_lowMask_toNat (x : Byte) {n : Nat} (within : n ≤ 8) :
    (x &&& BitVec.ofNat 8 (2 ^ n - 1)).toNat = x.toNat % 2 ^ n := by
  have fits : 2 ^ n - 1 < 2 ^ 8 := Nat.sub_one_lt_of_le (Nat.two_pow_pos n) (Nat.pow_le_pow_right two_pos within)
  rw [BitVec.toNat_and, BitVec.toNat_ofNat, Nat.mod_eq_of_lt fits, Nat.and_two_pow_sub_one_eq_mod]

/-- Where a shift loses no bit and the other operand fits below it, `|` adds. -/
theorem shiftLeft_or_toNat {high low : Byte} {n : Nat} (noLoss : high.toNat * 2 ^ n < 2 ^ 8)
    (below : low.toNat < 2 ^ n) : ((high <<< n) ||| low).toNat = high.toNat * 2 ^ n + low.toNat := by
  rw [BitVec.toNat_or, BitVec.toNat_shiftLeft, Nat.shiftLeft_eq, Nat.mod_eq_of_lt noLoss, ← Nat.shiftLeft_eq,
    Nat.shiftLeft_add_eq_or_of_lt below]

theorem ushiftRight_toNat (x : Byte) (n : Nat) : (x >>> n).toNat = x.toNat / 2 ^ n := by
  rw [BitVec.toNat_ushiftRight, Nat.shiftRight_eq_div_pow]

theorem zext_toNat (v : Val) : (v.setWidth 8).toNat = v.toNat :=
  BitVec.toNat_setWidth_of_le (by decide)

/-- The bytes of the word of four values, by shifts and masks. -/
theorem bytesOfGroup_groupOfVals_eq_shiftMask (w0 w1 w2 w3 : Val) :
    bytesOfGroup (groupOfVals w0 w1 w2 w3) =
      [(w0.setWidth 8 <<< 2) ||| (w1.setWidth 8 >>> 4),
        ((w1.setWidth 8 &&& 0x0F) <<< 4) ||| (w2.setWidth 8 >>> 2),
        ((w2.setWidth 8 &&& 0x03) <<< 6) ||| w3.setWidth 8] := by
  have number := groupOfVals_toNat w0 w1 w2 w3
  have bound0 : w0.toNat < 64 := w0.isLt
  have bound1 : w1.toNat < 64 := w1.isLt
  have bound2 : w2.toNat < 64 := w2.isLt
  have bound3 : w3.toNat < 64 := w3.isLt
  have low1 : (w1.setWidth 8 &&& 0x0F).toNat = w1.toNat % 2 ^ 4 :=
    (and_lowMask_toNat _ (n := 4) (by decide)).trans (by rw [zext_toNat])
  have low2 : (w2.setWidth 8 &&& 0x03).toNat = w2.toNat % 2 ^ 2 :=
    (and_lowMask_toNat _ (n := 2) (by decide)).trans (by rw [zext_toNat])
  simp only [bytesOfGroup, List.cons.injEq, and_true]
  refine ⟨extractLsb'_eq_of_toNat ?_, extractLsb'_eq_of_toNat ?_, extractLsb'_eq_of_toNat ?_⟩
  · rw [shiftLeft_or_toNat] <;> simp only [number, zext_toNat, ushiftRight_toNat] <;> omega
  · rw [shiftLeft_or_toNat] <;> simp only [number, low1, zext_toNat, ushiftRight_toNat] <;> omega
  · rw [shiftLeft_or_toNat] <;> simp only [number, low2, zext_toNat] <;> omega

/-- Settles O11: on Symbols `PACK4` is the bytes of the word of their values. -/
theorem packShiftMaskForm : Obligations.PackShiftMaskForm := by
  intro c0 c1 c2 c3 w0 w1 w2 w3 value0 value1 value2 value3
  rw [pack4_of_s2v value0 value1 value2 value3, bytesOfGroup_groupOfVals_eq_shiftMask]

theorem v2s_eq_of_toNat {v : Val} {x : Byte} (same : v.toNat = x.toNat) : v2s v = x + 0x20 := by
  have widened : v.setWidth 8 = x := BitVec.eq_of_toNat_eq ((zext_toNat v).trans same)
  rw [v2s, widened]

/-- Settles O12: each value is a bit range of the word of the three bytes, as a number the one the shifts and masks give. -/
theorem unpackShiftMaskForm : Obligations.UnpackShiftMaskForm := by
  intro b0 b1 b2
  have number := groupOfBytes_toNat b0 b1 b2
  have bound0 : b0.toNat < 256 := b0.isLt
  have bound1 : b1.toNat < 256 := b1.isLt
  have bound2 : b2.toNat < 256 := b2.isLt
  have low0 : (b0 &&& 0x03).toNat = b0.toNat % 2 ^ 2 := and_lowMask_toNat b0 (n := 2) (by decide)
  have low1 : (b1 &&& 0x0F).toNat = b1.toNat % 2 ^ 4 := and_lowMask_toNat b1 (n := 4) (by decide)
  have low2 : (b2 &&& 0x3F).toNat = b2.toNat % 2 ^ 6 := and_lowMask_toNat b2 (n := 6) (by decide)
  simp only [unpack3, valsOfGroup, List.map_cons, List.map_nil, List.cons.injEq, and_true]
  refine ⟨?_, ?_, ?_, ?_⟩ <;> apply v2s_eq_of_toNat <;>
    rw [BitVec.extractLsb'_toNat, Nat.shiftRight_eq_div_pow, number]
  · rw [ushiftRight_toNat]
    omega
  · rw [shiftLeft_or_toNat] <;> simp only [low0, ushiftRight_toNat] <;> omega
  · rw [shiftLeft_or_toNat] <;> simp only [low1, ushiftRight_toNat] <;> omega
  · rw [low2]
    omega

/-- A group that `PACK4` is defined on has values, and the bytes are those of their word. -/
theorem exists_s2v_of_pack4 {c0 c1 c2 c3 : Byte} {bytes : List Byte} (packed : pack4 c0 c1 c2 c3 = some bytes) :
    ∃ v0 v1 v2 v3, s2v c0 = some v0 ∧ s2v c1 = some v1 ∧ s2v c2 = some v2 ∧ s2v c3 = some v3 ∧
      bytes = bytesOfGroup (groupOfVals v0 v1 v2 v3) := by
  unfold pack4 at packed
  split at packed
  · next v0 v1 v2 v3 value0 value1 value2 value3 =>
    exact ⟨v0, v1, v2, v3, value0, value1, value2, value3, (Option.some.inj packed).symm⟩
  · cases packed

/-- Settles O13: the shift and mask form of each byte mentions the values of two lanes, and equal elements have equal
values. -/
theorem packByteDependsOnTwoLanes : Obligations.PackByteDependsOnTwoLanes := by
  intro c0 c1 c2 c3 d0 d1 d2 d3 x0 x1 x2 y0 y1 y2 packedC packedD
  obtain ⟨v0, v1, v2, v3, valueC0, valueC1, valueC2, valueC3, bytesC⟩ := exists_s2v_of_pack4 packedC
  obtain ⟨w0, w1, w2, w3, valueD0, valueD1, valueD2, valueD3, bytesD⟩ := exists_s2v_of_pack4 packedD
  simp only [bytesOfGroup_groupOfVals_eq_shiftMask, List.cons.injEq, and_true] at bytesC bytesD
  obtain ⟨rfl, rfl, rfl⟩ := bytesC
  obtain ⟨rfl, rfl, rfl⟩ := bytesD
  have sameValue {c d : Byte} {v w : Val} (valueC : s2v c = some v) (valueD : s2v d = some w) (same : c = d) :
      v = w := Option.some.inj (valueC.symm.trans (same ▸ valueD))
  refine ⟨fun same0 same1 => ?_, fun same1 same2 => ?_, fun same2 same3 => ?_⟩
  · rw [sameValue valueC0 valueD0 same0, sameValue valueC1 valueD1 same1]
  · rw [sameValue valueC1 valueD1 same1, sameValue valueC2 valueD2 same2]
  · rw [sameValue valueC2 valueD2 same2, sameValue valueC3 valueD3 same3]

end Sys2Proof.Machine
end

section

/-! The decoder and the encoder as inverses (30_encoding.md R36), and the words of the opcode table. -/

namespace Sys2Proof.Machine

theorem decode_encode (i : Instr) : decode (encode i) = i := by
  cases i <;> rfl

theorem opField_cases : ∀ op : OpField, op = 0b00 ∨ op = 0b01 ∨ op = 0b10 ∨ op = 0b11 := by
  decide

theorem encode_decode (r : Request) : encode (decode r) = r := by
  obtain ⟨op, data⟩ := r
  obtain rfl | rfl | rfl | rfl := opField_cases op <;> rfl

/-- Settles O3: row by row, by the command in one direction and by the `op` field in the other. -/
theorem decodeEncodeInverse : Obligations.DecodeEncodeInverse := ⟨decode_encode, encode_decode⟩

theorem decodeTableWord_of_two_le {nbits : Nat} (room : 2 ≤ nbits) (w : Nat) :
    decodeTableWord nbits w = some (decode { op := BitVec.ofNat 2 w, data := [] }) := by
  rw [decodeTableWord, tableWordRequest, if_neg (Nat.not_lt.2 room), Option.map_some]

/-- Settles O4: a table word decodes as the request of its two low bits with the empty operand. -/
theorem tableWordsDecode : Obligations.TableWordsDecode :=
  have room : 2 ≤ 8 := by decide
  ⟨(decodeTableWord_of_two_le room 0).trans (congrArg some (decode_pack [])),
    (decodeTableWord_of_two_le room 1).trans (congrArg some (decode_unpack [])),
    (decodeTableWord_of_two_le room 2).trans (congrArg some (decode_validate [])),
    (decodeTableWord_of_two_le room 3).trans (congrArg some (decode_op3 []))⟩

end Sys2Proof.Machine
end
